-- ==== Sys2Proof/Word.lean ====
section
/-!
DEFINITION. The word types of the CHIP-8 core (00_scope R6, R9): every register, field and immediate is unsigned,
and all arithmetic wraps at the width of the type.
-/

namespace Sys2Proof

/-- An 8-bit byte: a V register, a timer, a cell of memory, an immediate kk. -/
abbrev Byte := BitVec 8

/-- A 16-bit word: PC, I, a stack slot, an instruction. -/
abbrev Word := BitVec 16

/-- A 4-bit field of an instruction (30_encoding R71). -/
abbrev Nibble := BitVec 4

/-- The number of a general register V0..VF, as the X and Y fields hold it. -/
abbrev Reg := Nibble

/-- A 12-bit address field nnn (30_encoding R71). -/
abbrev Addr := BitVec 12

/-- VF, the register that doubles as the flag (10_state R22). -/
abbrev vf : Reg := 0xF#4

/-- `zext_16(nnn)` (30_encoding R72): an address field is zero-extended, never scaled. -/
abbrev zext16 (nnn : Addr) : Word := nnn.setWidth 16

end Sys2Proof
end

