-- ==== Sys2Proof/Machine/Flags.lean ====
section
/-!
DEFINITION. Every value the flag VF can be given by the arithmetic instructions (10_state R43), from the operands before
anything is written (70_reset R221).
-/

namespace Sys2Proof.Machine

/-- The byte a flag is written as: 1 or 0. -/
def flagByte (f : Bool) : Byte := if f then 1#8 else 0#8

/-- The carry of 8XY4: the exact sum does not fit 8 bits (42_alu R126). -/
def addCarry (a b : Byte) : Bool := decide (255 < a.toNat + b.toNat)

/-- NOT borrow of `a - b`, for 8XY5 and, with the operands swapped, 8XY7 (42_alu R127, R129). -/
def notBorrow (a b : Byte) : Bool := decide (b.toNat ≤ a.toNat)

/-- The bit 8XY6 shifts out: bit 0 of the value before the shift (42_alu R128). -/
def lowBit (a : Byte) : Bool := a.getLsbD 0

/-- The bit 8XYE shifts out: bit 7 of the value before the shift (42_alu R130). -/
def highBit (a : Byte) : Bool := a.getLsbD 7

end Sys2Proof.Machine
end

