-- ==== Sys2Proof/Syntax.lean ====
section
/-!
DEFINITION. The instructions of the core, one constructor per row of the opcode map (30_encoding R75), in its order.
-/

namespace Sys2Proof

/-- The 34 instructions and INVALID (30_encoding R75). The operands are the fields of 30_encoding R71. -/
inductive Instr where
  /-- 00E0 CLS (44_display R160) -/
  | cls
  /-- 00EE RET (41_control_flow R101) -/
  | ret
  /-- 1NNN JP nnn (R102) -/
  | jp (nnn : Addr)
  /-- 2NNN CALL nnn (R103) -/
  | call (nnn : Addr)
  /-- 3XKK SE Vx, kk (R104) -/
  | seByte (x : Reg) (kk : Byte)
  /-- 4XKK SNE Vx, kk (R105) -/
  | sneByte (x : Reg) (kk : Byte)
  /-- 5XY0 SE Vx, Vy (R106) -/
  | seReg (x y : Reg)
  /-- 6XKK LD Vx, kk (42_alu R120) -/
  | ldByte (x : Reg) (kk : Byte)
  /-- 7XKK ADD Vx, kk (R121) -/
  | addByte (x : Reg) (kk : Byte)
  /-- 8XY0 LD Vx, Vy (R122) -/
  | ldReg (x y : Reg)
  /-- 8XY1 OR Vx, Vy (R123) -/
  | orReg (x y : Reg)
  /-- 8XY2 AND Vx, Vy (R124) -/
  | andReg (x y : Reg)
  /-- 8XY3 XOR Vx, Vy (R125) -/
  | xorReg (x y : Reg)
  /-- 8XY4 ADD Vx, Vy (R126) -/
  | addReg (x y : Reg)
  /-- 8XY5 SUB Vx, Vy (R127) -/
  | sub (x y : Reg)
  /-- 8XY6 SHR Vx, Vy (R128) -/
  | shr (x y : Reg)
  /-- 8XY7 SUBN Vx, Vy (R129) -/
  | subn (x y : Reg)
  /-- 8XYE SHL Vx, Vy (R130) -/
  | shl (x y : Reg)
  /-- 9XY0 SNE Vx, Vy (41_control_flow R107) -/
  | sneReg (x y : Reg)
  /-- ANNN LD I, nnn (43_index_memory R140) -/
  | ldI (nnn : Addr)
  /-- BNNN JP V0, nnn, in jump mode JP Vx, xnn with x = nnn[11:8] (41_control_flow R108) -/
  | jpV (nnn : Addr)
  /-- CXKK RND Vx, kk (42_alu R131) -/
  | rnd (x : Reg) (kk : Byte)
  /-- DXYN DRW Vx, Vy, n (44_display R161) -/
  | drw (x y : Reg) (n : Nibble)
  /-- EX9E SKP Vx (45_timers_keys R170) -/
  | skp (x : Reg)
  /-- EXA1 SKNP Vx (R171) -/
  | sknp (x : Reg)
  /-- FX07 LD Vx, DT (R172) -/
  | ldVxDt (x : Reg)
  /-- FX0A LD Vx, K (R173) -/
  | ldVxK (x : Reg)
  /-- FX15 LD DT, Vx (R174) -/
  | ldDtVx (x : Reg)
  /-- FX18 LD ST, Vx (R175) -/
  | ldStVx (x : Reg)
  /-- FX1E ADD I, Vx (43_index_memory R141) -/
  | addI (x : Reg)
  /-- FX29 LD F, Vx (R142) -/
  | ldF (x : Reg)
  /-- FX33 LD B, Vx (R143) -/
  | ldB (x : Reg)
  /-- FX55 LD [I], Vx (R145) -/
  | stRegs (x : Reg)
  /-- FX65 LD Vx, [I] (R146) -/
  | ldRegs (x : Reg)
  /-- INVALID: any word of 30_encoding R77, kept whole (40_step R93) -/
  | invalid (w : Word)
deriving DecidableEq, Repr

end Sys2Proof
end

