-- ==== Sys2Proof/WellFormed.lean ====
section
/-!
DEFINITION. Which terms of Instr stand for an instruction. The operand types hold exactly the values the fields can
(30_encoding R71), so the one thing left to check is that INVALID carries a word of 30_encoding R77.
-/

namespace Sys2Proof

/-- The six classes of illegal words as 30_encoding R77 lists them. -/
def isInvalidWord (w : Word) : Bool :=
  let kk := w &&& 0x00FF#16
  let n := w &&& 0x000F#16
  match (w >>> 12).toNat with
  | 0x0 => decide (w ≠ 0x00E0#16 ∧ w ≠ 0x00EE#16)
  | 0x5 => decide (n ≠ 0#16)
  | 0x8 => decide (n ∈ [0x8#16, 0x9#16, 0xA#16, 0xB#16, 0xC#16, 0xD#16, 0xF#16])
  | 0x9 => decide (n ≠ 0#16)
  | 0xE => decide (kk ∉ [0x9E#16, 0xA1#16])
  | 0xF => decide (kk ∉ [0x07#16, 0x0A#16, 0x15#16, 0x18#16, 0x1E#16, 0x29#16, 0x33#16, 0x55#16, 0x65#16])
  | _ => false

/-- A term of Instr that some word encodes: INVALID only with a word no row of the opcode map matches. -/
def Instr.wellFormed : Instr → Bool
  | .invalid w => isInvalidWord w
  | .cls | .ret | .jp _ | .call _ | .seByte _ _ | .sneByte _ _ | .seReg _ _ | .ldByte _ _ | .addByte _ _ | .ldReg _ _
  | .orReg _ _ | .andReg _ _ | .xorReg _ _ | .addReg _ _ | .sub _ _ | .shr _ _ | .subn _ _ | .shl _ _ | .sneReg _ _
  | .ldI _ | .jpV _ | .rnd _ _ | .drw _ _ _ | .skp _ | .sknp _ | .ldVxDt _ | .ldVxK _ | .ldDtVx _ | .ldStVx _
  | .addI _ | .ldF _ | .ldB _ | .stRegs _ | .ldRegs _ => true

/-- The proposition that `Instr.wellFormed` decides. -/
abbrev WellFormed (i : Instr) : Prop := i.wellFormed = true

end Sys2Proof
end

