-- ==== Sys2Proof/Decode.lean ====
section
/-!
DEFINITION. The decoder (30_encoding R76), the opcode map it is equivalent to (R75), and an encoder written from the same
encodings. Decoding reads the word alone, never the state (R74).
-/

namespace Sys2Proof

/-! ## Fields (30_encoding R71) -/

/-- `msq = w[15:12]`, the family selector. -/
def msq (w : Word) : Nibble := w.extractLsb' 12 4

/-- `x = w[11:8]`. -/
def fieldX (w : Word) : Reg := w.extractLsb' 8 4

/-- `y = w[7:4]`. -/
def fieldY (w : Word) : Reg := w.extractLsb' 4 4

/-- `n = w[3:0]`, the least significant nibble. -/
def fieldN (w : Word) : Nibble := w.extractLsb' 0 4

/-- `kk = w[7:0]`. -/
def fieldKK (w : Word) : Byte := w.extractLsb' 0 8

/-- `nnn = w[11:0]`. -/
def fieldNNN (w : Word) : Addr := w.extractLsb' 0 12

/-! ## The decoder -/

/-- The decoder of 30_encoding R76: every fixed nibble is checked (D5; log 8), anything else is INVALID. -/
def decodeWord (w : Word) : Instr :=
  let x := fieldX w
  let y := fieldY w
  let n := fieldN w
  let kk := fieldKK w
  let nnn := fieldNNN w
  match (msq w).toNat with
  | 0x0 =>
    match w.toNat with
    | 0x00E0 => .cls
    | 0x00EE => .ret
    | _ => .invalid w
  | 0x1 => .jp nnn
  | 0x2 => .call nnn
  | 0x3 => .seByte x kk
  | 0x4 => .sneByte x kk
  | 0x5 =>
    match n.toNat with
    | 0x0 => .seReg x y
    | _ => .invalid w
  | 0x6 => .ldByte x kk
  | 0x7 => .addByte x kk
  | 0x8 =>
    match n.toNat with
    | 0x0 => .ldReg x y
    | 0x1 => .orReg x y
    | 0x2 => .andReg x y
    | 0x3 => .xorReg x y
    | 0x4 => .addReg x y
    | 0x5 => .sub x y
    | 0x6 => .shr x y
    | 0x7 => .subn x y
    | 0xE => .shl x y
    | _ => .invalid w
  | 0x9 =>
    match n.toNat with
    | 0x0 => .sneReg x y
    | _ => .invalid w
  | 0xA => .ldI nnn
  | 0xB => .jpV nnn
  | 0xC => .rnd x kk
  | 0xD => .drw x y n
  | 0xE =>
    match kk.toNat with
    | 0x9E => .skp x
    | 0xA1 => .sknp x
    | _ => .invalid w
  | 0xF =>
    match kk.toNat with
    | 0x07 => .ldVxDt x
    | 0x0A => .ldVxK x
    | 0x15 => .ldDtVx x
    | 0x18 => .ldStVx x
    | 0x1E => .addI x
    | 0x29 => .ldF x
    | 0x33 => .ldB x
    | 0x55 => .stRegs x
    | 0x65 => .ldRegs x
    | _ => .invalid w
  | _ => .invalid w

/-- The word of two bytes in memory order: the lower address holds bits 15..8 (20_memory R55). -/
def wordOfBytes (hi lo : Byte) : Word := hi ++ lo

/-- Why a list of bytes is no instruction. -/
inductive DecodeError where
  /-- Fewer than two bytes: every instruction is one 16-bit word (30_encoding R70). -/
  | truncated
deriving DecidableEq, Repr

/-- Decode the instruction at the front of a list of bytes, with the bytes after it. -/
def decode : List Byte → Except DecodeError (Instr × List Byte)
  | hi :: lo :: rest => .ok (decodeWord (wordOfBytes hi lo), rest)
  | _ => .error .truncated

/-! ## The encoder, from the patterns of 30_encoding R75 -/

/-- The word a pattern of one family nibble and three more nibbles spells. -/
def nibbles (a b c d : Nibble) : Word := a ++ b ++ c ++ d

/-- The word of the formats O and A: a family nibble and twelve more bits (30_encoding R73). -/
def formatA (a : Nibble) (nnn : Addr) : Word := a ++ nnn

/-- The word of the formats XK and X: a family nibble, a register and a byte (30_encoding R73). -/
def formatXK (a : Nibble) (x : Reg) (kk : Byte) : Word := a ++ x ++ kk

/-- The word of an instruction (30_encoding R75). -/
def encode : Instr → Word
  | .cls => 0x00E0#16
  | .ret => 0x00EE#16
  | .jp nnn => formatA 0x1#4 nnn
  | .call nnn => formatA 0x2#4 nnn
  | .seByte x kk => formatXK 0x3#4 x kk
  | .sneByte x kk => formatXK 0x4#4 x kk
  | .seReg x y => nibbles 0x5#4 x y 0x0#4
  | .ldByte x kk => formatXK 0x6#4 x kk
  | .addByte x kk => formatXK 0x7#4 x kk
  | .ldReg x y => nibbles 0x8#4 x y 0x0#4
  | .orReg x y => nibbles 0x8#4 x y 0x1#4
  | .andReg x y => nibbles 0x8#4 x y 0x2#4
  | .xorReg x y => nibbles 0x8#4 x y 0x3#4
  | .addReg x y => nibbles 0x8#4 x y 0x4#4
  | .sub x y => nibbles 0x8#4 x y 0x5#4
  | .shr x y => nibbles 0x8#4 x y 0x6#4
  | .subn x y => nibbles 0x8#4 x y 0x7#4
  | .shl x y => nibbles 0x8#4 x y 0xE#4
  | .sneReg x y => nibbles 0x9#4 x y 0x0#4
  | .ldI nnn => formatA 0xA#4 nnn
  | .jpV nnn => formatA 0xB#4 nnn
  | .rnd x kk => formatXK 0xC#4 x kk
  | .drw x y n => nibbles 0xD#4 x y n
  | .skp x => formatXK 0xE#4 x 0x9E#8
  | .sknp x => formatXK 0xE#4 x 0xA1#8
  | .ldVxDt x => formatXK 0xF#4 x 0x07#8
  | .ldVxK x => formatXK 0xF#4 x 0x0A#8
  | .ldDtVx x => formatXK 0xF#4 x 0x15#8
  | .ldStVx x => formatXK 0xF#4 x 0x18#8
  | .addI x => formatXK 0xF#4 x 0x1E#8
  | .ldF x => formatXK 0xF#4 x 0x29#8
  | .ldB x => formatXK 0xF#4 x 0x33#8
  | .stRegs x => formatXK 0xF#4 x 0x55#8
  | .ldRegs x => formatXK 0xF#4 x 0x65#8
  | .invalid w => w

/-- The byte at the lower address: bits 15..8. -/
def highByte (w : Word) : Byte := w.extractLsb' 8 8

/-- The byte at the higher address: bits 7..0. -/
def lowByte (w : Word) : Byte := w.extractLsb' 0 8

/-- An instruction's two bytes in memory order (20_memory R55). -/
def encodeBytes (i : Instr) : List Byte := [highByte (encode i), lowByte (encode i)]

/-! ## The opcode map (30_encoding R75) -/

/-- The mask and match of an instruction's row of the opcode map; INVALID, which no row matches, has none. -/
def Instr.row : Instr → Option (Word × Word)
  | .cls => some (0xFFFF#16, 0x00E0#16)
  | .ret => some (0xFFFF#16, 0x00EE#16)
  | .jp _ => some (0xF000#16, 0x1000#16)
  | .call _ => some (0xF000#16, 0x2000#16)
  | .seByte _ _ => some (0xF000#16, 0x3000#16)
  | .sneByte _ _ => some (0xF000#16, 0x4000#16)
  | .seReg _ _ => some (0xF00F#16, 0x5000#16)
  | .ldByte _ _ => some (0xF000#16, 0x6000#16)
  | .addByte _ _ => some (0xF000#16, 0x7000#16)
  | .ldReg _ _ => some (0xF00F#16, 0x8000#16)
  | .orReg _ _ => some (0xF00F#16, 0x8001#16)
  | .andReg _ _ => some (0xF00F#16, 0x8002#16)
  | .xorReg _ _ => some (0xF00F#16, 0x8003#16)
  | .addReg _ _ => some (0xF00F#16, 0x8004#16)
  | .sub _ _ => some (0xF00F#16, 0x8005#16)
  | .shr _ _ => some (0xF00F#16, 0x8006#16)
  | .subn _ _ => some (0xF00F#16, 0x8007#16)
  | .shl _ _ => some (0xF00F#16, 0x800E#16)
  | .sneReg _ _ => some (0xF00F#16, 0x9000#16)
  | .ldI _ => some (0xF000#16, 0xA000#16)
  | .jpV _ => some (0xF000#16, 0xB000#16)
  | .rnd _ _ => some (0xF000#16, 0xC000#16)
  | .drw _ _ _ => some (0xF000#16, 0xD000#16)
  | .skp _ => some (0xF0FF#16, 0xE09E#16)
  | .sknp _ => some (0xF0FF#16, 0xE0A1#16)
  | .ldVxDt _ => some (0xF0FF#16, 0xF007#16)
  | .ldVxK _ => some (0xF0FF#16, 0xF00A#16)
  | .ldDtVx _ => some (0xF0FF#16, 0xF015#16)
  | .ldStVx _ => some (0xF0FF#16, 0xF018#16)
  | .addI _ => some (0xF0FF#16, 0xF01E#16)
  | .ldF _ => some (0xF0FF#16, 0xF029#16)
  | .ldB _ => some (0xF0FF#16, 0xF033#16)
  | .stRegs _ => some (0xF0FF#16, 0xF055#16)
  | .ldRegs _ => some (0xF0FF#16, 0xF065#16)
  | .invalid _ => none

/-- The 34 rows (mask, match) of the opcode map, in its order. -/
def opcodeMap : List (Word × Word) :=
  [(0xFFFF#16, 0x00E0#16), (0xFFFF#16, 0x00EE#16), (0xF000#16, 0x1000#16), (0xF000#16, 0x2000#16),
   (0xF000#16, 0x3000#16), (0xF000#16, 0x4000#16), (0xF00F#16, 0x5000#16), (0xF000#16, 0x6000#16),
   (0xF000#16, 0x7000#16)] ++
  [(0xF00F#16, 0x8000#16), (0xF00F#16, 0x8001#16), (0xF00F#16, 0x8002#16), (0xF00F#16, 0x8003#16),
   (0xF00F#16, 0x8004#16), (0xF00F#16, 0x8005#16), (0xF00F#16, 0x8006#16), (0xF00F#16, 0x8007#16),
   (0xF00F#16, 0x800E#16), (0xF00F#16, 0x9000#16)] ++
  [(0xF000#16, 0xA000#16), (0xF000#16, 0xB000#16), (0xF000#16, 0xC000#16), (0xF000#16, 0xD000#16),
   (0xF0FF#16, 0xE09E#16), (0xF0FF#16, 0xE0A1#16)] ++
  [(0xF0FF#16, 0xF007#16), (0xF0FF#16, 0xF00A#16), (0xF0FF#16, 0xF015#16), (0xF0FF#16, 0xF018#16),
   (0xF0FF#16, 0xF01E#16), (0xF0FF#16, 0xF029#16), (0xF0FF#16, 0xF033#16), (0xF0FF#16, 0xF055#16),
   (0xF0FF#16, 0xF065#16)]

/-- A word matches a row when `(w & mask) = match`. -/
def matchesRow (w : Word) (row : Word × Word) : Bool := w &&& row.1 == row.2

/-! ## The host's question -/

/-- The instruction this decoder reads from the word of the opcode table whose low `nbits` bits are `w` (bits above are 0),
laid out as the core stores it: high byte at the lower address. -/
def decodeTableWord (nbits w : Nat) : Option Instr :=
  let word : Word := BitVec.ofNat 16 (w % 2 ^ nbits)
  match decode [highByte word, lowByte word] with
  | .ok (i, _) => some i
  | .error _ => none

end Sys2Proof
end

