-- ==== Sys2Proof/Config.lean ====
section
/-!
DEFINITION. What is fixed for one core (00_scope R6), the two parameters of construction and the two draws of a step
(00_scope R7). The parameters and draws have no body: nothing can evaluate them or prove a value of one, so whatever is
proved holds for every value (log 2, 3, 6, 7).
-/

namespace Sys2Proof

/-- The three dialect switches (10_state R37). Note that false means modern for `shift` and `index` and VIP for `jump`. -/
structure Modes where
  /-- false: SHR and SHL shift V[x]; true: they shift V[y] into V[x] (R38). -/
  shift : Bool
  /-- false: BNNN jumps to nnn + V0; true: to nnn + V[x] (R39). -/
  jump : Bool
  /-- false: FX55 and FX65 leave I; true: I ends at I + x + 1 (R40). -/
  index : Bool
deriving DecidableEq, Repr, Inhabited

/-- The addresses the first byte of the fontset can have: `FONT_BASE + 80 <= 0x200` (00_scope R7). -/
abbrev FontBase := Fin 433

namespace Config

/-- `MEM_SIZE`: bytes of memory (00_scope R6). -/
abbrev memSize : Nat := 4096

/-- `PROG_START`: where programs load and the PC starts (00_scope R6). -/
abbrev progStart : Nat := 0x200

/-- The longest ROM that loads: `MEM_SIZE - PROG_START` (00_scope R6). -/
abbrev maxRom : Nat := 3584

/-- `FONT_BASE`, the parameter the source leaves open (00_scope R7, D1; log 2). -/
opaque fontBase : FontBase

/-- `MODES_INIT`, the mode flags at construction (00_scope R7, D4; log 3). -/
opaque modesInit : Modes

/-- The random byte `rnd` of draw number n, a free value (10_state R42, D17; log 6). -/
opaque randomByte : Nat → Byte

/-- The pressed state `keydraw` of draw number n for an index that names no key, a free value (D13; log 7). -/
opaque keyDraw : Nat → Bool

end Config

end Sys2Proof
end

