-- ==== Sys2Proof/Machine/State.lean ====
section
/-!
DEFINITION. The state of the core: the tuple of 10_state R20, the construction parameter FONT_BASE (00_scope R7), and two
fields of the model's own (the number of the next draws, and the outcome the latest step returned); and what construction
leaves (70_reset R200).
-/

namespace Sys2Proof.Machine

/-- The errors of a step (60_exceptions R180). The instructions and the step never answer Host.Outcome.fault: they go on to
the next state 60_exceptions R182 gives and record the error there (log 1). Sys2Proof.Safety.observe answers the fault, as
70_reset R215 and R216 have a run end at its first unsuccessful step (log 17). -/
inductive Fault where
  /-- Recorded by INVALID, in every state (40_step R93). Safe: the run's observation stops where the core could go on. -/
  | invalidOpcode
  /-- Recorded by RET at SP = 0 (41_control_flow R101). Safe: the run's observation stops where the core could go on. -/
  | stackEmpty
  /-- Recorded by CALL at SP = 16 (41_control_flow R103). Safe: the run's observation stops where the core could go on. -/
  | stackOverflow
  /-- Recorded by DRW, FX33, FX55 and FX65 when I + n > 4096 (20_memory R57) and by a fetch at PC > 0xFFE (20_memory R56).
  Safe: the run's observation stops where the core could go on. -/
  | memoryOutOfBounds
deriving DecidableEq, Repr

/-- The closed set of outcomes of a step (60_exceptions R180). -/
inductive StepOutcome where
  | success
  | error (e : Fault)
deriving DecidableEq, Repr

/-- Why the model answers nothing. No instruction and no step does. -/
inductive Refusal where
  /-- For exec's arms without a meaning; none is left, so nobody raises it. Safe: it stops. -/
  | notModelled (mnemonic : String)
  /-- Raised by the host operation SetKey for an index outside 0..15, which is not part of the interface (70_reset R212;
  log 29). Safe: it stops. -/
  | keyOutOfRange (k : Nat)
deriving DecidableEq, Repr

/-- MEM (20_memory R50): the bytes that differ from their reset contents, addresses strictly rising (log 25). -/
abbrev Memory := List Host.Cell

/-- FB (10_state R36): 32 rows of 64 cells; `true` is a lit pixel, the byte 1. -/
abbrev Screen := Vector (Vector Bool 64) 32

/-- The state of the core (10_state R20). -/
structure State where
  /-- MEM, 4096 bytes (20_memory R50). -/
  mem : Memory
  /-- V0..VF (10_state R21). -/
  v : Vector Byte 16
  /-- I (10_state R26). -/
  regI : Word
  /-- PC (10_state R24). -/
  pc : Word
  /-- STACK, 16 slots (10_state R27). -/
  stack : Vector Word 16
  /-- SP, the count of live stack entries, 0..16 (10_state R27, D22). -/
  sp : Fin 17
  /-- DT, the delay timer (10_state R31). -/
  dt : Byte
  /-- ST, the sound timer (10_state R32). -/
  st : Byte
  /-- KEYS, bit k for key k (10_state R34, D14). -/
  keys : Word
  /-- FB (10_state R36). -/
  fb : Screen
  /-- MODES (10_state R37). -/
  modes : Modes
  /-- FONT_BASE, fixed at construction (00_scope R7; log 2). -/
  fontBase : FontBase
  /-- The model's own: the number of the draws this step reads (log 6). -/
  drawIndex : Nat
  /-- The model's own: what the latest step returned (60_exceptions R180; log 1). -/
  outcome : StepOutcome
deriving DecidableEq, Repr

/-- `Reset(FONT_BASE, MODES_INIT)` (70_reset R200). I, SP, STACK, DT, ST, KEYS and FB at zero are the spec's decision D3
(log 5); `drawIndex` and `outcome` are the model's (log 6, log 30). -/
def State.construct (fontBase : FontBase) (modesInit : Modes) : State where
  mem := []
  v := Vector.replicate 16 0#8
  regI := 0#16
  pc := 0x200#16
  stack := Vector.replicate 16 0#16
  sp := 0
  dt := 0#8
  st := 0#8
  keys := 0#16
  fb := Vector.replicate 32 (Vector.replicate 64 false)
  modes := modesInit
  fontBase := fontBase
  drawIndex := 0
  outcome := .success

/-- The machine right after construction with whatever parameters the host chose (70_reset R200; log 2, log 3). -/
def State.reset : State := State.construct Config.fontBase Config.modesInit

/-- What a step or an instruction answers. -/
abbrev Result := Host.Outcome State Fault Refusal

end Sys2Proof.Machine
end

