-- ==== Sys2Proof/Machine/Ops.lean ====
section
/-!
DEFINITION. The named operations on registers, memory, the stack and the step's prologue, and the one way an instruction
ends well (`succeed`) or reports an error (`raise`).
-/

namespace Sys2Proof.Machine

/-! ## Ending an instruction (00_scope R12) -/

/-- `return Success`. -/
def succeed (s : State) : Result := .next { s with outcome := .success }

/-- `raise E`: the outcome is returned and nothing else happens; no state is saved, no mode changes and control goes nowhere
(60_exceptions R182, R185). There is no return from it (R186): the next step runs from this state (40_step R95). -/
def raise (e : Fault) (s : State) : Result := .next { s with outcome := .error e }

/-! ## Registers (10_state R21 to R26) -/

/-- `V[x]`. -/
def State.reg (s : State) (x : Reg) : Byte := s.v[x.toNat]

/-- `V[x] <- b`. -/
def State.setReg (x : Reg) (b : Byte) (s : State) : State := { s with v := s.v.set x.toNat b }

/-- `V[0] <- f 0 .. V[15] <- f 15` at once. -/
def State.setRegs (f : Reg → Byte) (s : State) : State :=
  { s with v := #v[f 0#4, f 1#4, f 2#4, f 3#4, f 4#4, f 5#4, f 6#4, f 7#4,
                   f 8#4, f 9#4, f 10#4, f 11#4, f 12#4, f 13#4, f 14#4, f 15#4] }

/-- `I <- a`. -/
def State.setI (a : Word) (s : State) : State := { s with regI := a }

/-- `PC <- a`. -/
def State.setPc (a : Word) (s : State) : State := { s with pc := a }

/-- `DT <- b`. -/
def State.setDt (b : Byte) (s : State) : State := { s with dt := b }

/-- `ST <- b`. -/
def State.setSt (b : Byte) (s : State) : State := { s with st := b }

/-- `FB` as a whole. -/
def State.setFb (fb : Screen) (s : State) : State := { s with fb := fb }

/-- A taken skip: `PC <- u16(PC + 2)` (41_control_flow R100). -/
def State.skipIf (taken : Bool) (s : State) : State := s.setPc (if taken then s.pc + 2#16 else s.pc)

/-! ## Memory (20_memory R50 to R58) -/

/-- The fontset, glyphs 0 to F of five bytes, top row first (20_memory R53, D2; PRESUMED, log 4). -/
def font : List Byte :=
  [0xF0#8, 0x90#8, 0x90#8, 0x90#8, 0xF0#8] ++ [0x20#8, 0x60#8, 0x20#8, 0x20#8, 0x70#8] ++
  [0xF0#8, 0x10#8, 0xF0#8, 0x80#8, 0xF0#8] ++ [0xF0#8, 0x10#8, 0xF0#8, 0x10#8, 0xF0#8] ++
  [0x90#8, 0x90#8, 0xF0#8, 0x10#8, 0x10#8] ++ [0xF0#8, 0x80#8, 0xF0#8, 0x10#8, 0xF0#8] ++
  [0xF0#8, 0x80#8, 0xF0#8, 0x90#8, 0xF0#8] ++ [0xF0#8, 0x10#8, 0x20#8, 0x40#8, 0x40#8] ++
  [0xF0#8, 0x90#8, 0xF0#8, 0x90#8, 0xF0#8] ++ [0xF0#8, 0x90#8, 0xF0#8, 0x10#8, 0xF0#8] ++
  [0xF0#8, 0x90#8, 0xF0#8, 0x90#8, 0x90#8] ++ [0xE0#8, 0x90#8, 0xE0#8, 0x90#8, 0xE0#8] ++
  [0xF0#8, 0x80#8, 0x80#8, 0x80#8, 0xF0#8] ++ [0xE0#8, 0x90#8, 0x90#8, 0x90#8, 0xE0#8] ++
  [0xF0#8, 0x80#8, 0xF0#8, 0x80#8, 0xF0#8] ++ [0xF0#8, 0x80#8, 0xF0#8, 0x80#8, 0x80#8]

/-- What a byte that memory does not list reads as: its reset contents, the fontset at FONT_BASE and zero elsewhere
(20_memory R52, R53). The fontset lies below 0x200 (R54), so an address from 0x200 up is settled without FONT_BASE. -/
def resetByte (fontBase : FontBase) (a : Nat) : Byte :=
  if Config.progStart ≤ a then 0#8
  else if fontBase.val ≤ a then (font[a - fontBase.val]?).getD 0#8
  else 0#8

/-- The byte at an address. -/
def Memory.read (fontBase : FontBase) : Memory → Nat → Byte
  | [], a => resetByte fontBase a
  | (a', b) :: rest, a => if a' = a then b else Memory.read fontBase rest a

/-- Put an entry before the first one of a higher address. -/
def Memory.insert (a : Nat) (b : Byte) : Memory → Memory
  | [] => [(a, b)]
  | (a', b') :: rest => if a < a' then (a, b) :: (a', b') :: rest else (a', b') :: Memory.insert a b rest

/-- Memory with the byte at an address changed; an entry equal to the reset contents is not kept. -/
def Memory.write (fontBase : FontBase) (m : Memory) (a : Nat) (b : Byte) : Memory :=
  let others := m.filter (fun c => c.1 != a)
  if b = resetByte fontBase a then others else Memory.insert a b others

/-- The canonical form: addresses strictly rising and below 4096, and no entry equal to what an unlisted byte reads as. -/
abbrev Memory.wf (fontBase : FontBase) (m : Memory) : Prop :=
  m.Pairwise (fun c d => c.1 < d.1) ∧ ∀ c ∈ m, c.1 < Config.memSize ∧ c.2 ≠ resetByte fontBase c.1

/-- `MemRead(a, 1)` (00_scope R11). -/
def State.readByte (s : State) (a : Nat) : Byte := Memory.read s.fontBase s.mem a

/-- `MemWrite(a, 1, b)` (00_scope R11). -/
def State.writeByte (a : Nat) (b : Byte) (s : State) : State := { s with mem := Memory.write s.fontBase s.mem a b }

/-- The n bytes at a, a + 1, .. -/
def State.readRun (s : State) (a : Nat) : Nat → List Byte
  | 0 => []
  | n + 1 => s.readByte a :: s.readRun (a + 1) n

/-- Write a list of bytes at a, a + 1, .., the lowest address first. -/
def State.writeRun (a : Nat) : List Byte → State → State
  | [], s => s
  | b :: bs, s => State.writeRun (a + 1) bs (s.writeByte a b)

/-- The check every access of n bytes through I makes first: `I + n <= 4096`, computed without wrap (20_memory R57, D12;
log 14). -/
def State.runInBounds (s : State) (n : Nat) : Bool := decide (s.regI.toNat + n ≤ Config.memSize)

/-! ## The call stack (10_state R27 to R29) -/

/-- `Push(value)`; none when the stack is full. -/
def State.push (value : Word) (s : State) : Option State :=
  if h : s.sp.val < 16 then some { s with stack := s.stack.set s.sp.val value, sp := ⟨s.sp.val + 1, by omega⟩ } else none

/-- `Pop()`: the top value and the state after; the slot keeps its value. None when the stack is empty. -/
def State.pop (s : State) : Option (Word × State) :=
  if h : 0 < s.sp.val then
    some (s.stack[s.sp.val - 1]'(by omega), { s with sp := ⟨s.sp.val - 1, by omega⟩ })
  else none

/-! ## The framebuffer (10_state R36) -/

/-- `FB[y][x]`, the coordinates taken modulo the screen's height and width. -/
def Screen.pixel (fb : Screen) (x y : Nat) : Bool := (fb[y % 32]'(by omega))[x % 64]'(by omega)

/-- `FB[y][x] <- b`, the coordinates taken modulo the screen's height and width. -/
def Screen.setPixel (fb : Screen) (x y : Nat) (b : Bool) : Screen :=
  fb.set (y % 32) ((fb[y % 32]'(by omega)).set (x % 64) b (by omega)) (by omega)

/-- Every cell dark. -/
def Screen.blank : Screen := Vector.replicate 32 (Vector.replicate 64 false)

/-! ## The prologue of a step (40_step R90) -/

/-- A timer's tick: down by one, never below zero (10_state R33). -/
def tick (t : Byte) : Byte := if t = 0#8 then 0#8 else t - 1#8

/-- The word at [PC, PC+1], high byte first (20_memory R55). -/
def State.fetch16 (s : State) : Word := wordOfBytes (s.readByte s.pc.toNat) (s.readByte (s.pc.toNat + 1))

/-- The fetch; none when PC > 0xFFE (20_memory R56, D6; log 9). -/
def State.fetch? (s : State) : Option Word := if s.pc.toNat ≤ 0xFFE then some s.fetch16 else none

/-- What a step does between fetch and execute: PC past the word, both timers ticked, and fresh draws (40_step R90). -/
def State.advance (s : State) : State :=
  { s with pc := s.pc + 2#16, dt := tick s.dt, st := tick s.st, drawIndex := s.drawIndex + 1 }

/-- Store a word where the next fetch reads it; a PC past 0xFFE has no such place (log 28). -/
def State.placeWord (w : Word) (s : State) : State :=
  if s.pc.toNat ≤ 0xFFE then s.writeRun s.pc.toNat [highByte w, lowByte w] else s

end Sys2Proof.Machine
end

