-- ==== Sys2Proof/Machine/Operands.lean ====
section
/-!
DEFINITION. What an instruction reads besides a plain register: the operands a mode flag chooses, the key a register names,
and the draws of the step.
-/

namespace Sys2Proof.Machine

/-- The value SHR and SHL shift: V[y] when MODES.shift, else V[x] (10_state R38). -/
def State.shiftSource (s : State) (x y : Reg) : Byte := if s.modes.shift then s.reg y else s.reg x

/-- The register BNNN adds: V[x] with x = nnn[11:8] when MODES.jump, else V0 (10_state R39). -/
def State.jumpOffset (s : State) (nnn : Addr) : Byte :=
  if s.modes.jump then s.reg (nnn.extractLsb' 8 4) else s.reg 0x0#4

/-- I after FX55 or FX65: I + x + 1 when MODES.index, else I (10_state R40). -/
def State.indexAfterCopy (s : State) (x : Reg) : Word :=
  if s.modes.index then s.regI + BitVec.ofNat 16 (x.toNat + 1) else s.regI

/-- V0..V[x], the registers FX55 stores. -/
def State.regsUpTo (s : State) (x : Reg) : List Byte := s.v.toList.take (x.toNat + 1)

/-- The step's random byte `rnd`, a free value (10_state R42, D17; log 6). -/
def State.randomDraw (s : State) : Byte := Config.randomByte s.drawIndex

/-- The step's key draw `keydraw`, a free value (D13; log 7). -/
def State.keyDraw (s : State) : Bool := Config.keyDraw s.drawIndex

/-- `Pressed(k)`: bit k of KEYS for a key 0..15 (10_state R34); for k >= 16, which names no key, the step's draw
(45_timers_keys, D13; log 7). -/
def State.pressed (s : State) (k : Byte) : Bool := if k.toNat < 16 then s.keys.getLsbD k.toNat else s.keyDraw

/-- `min { k in 0..15 | KEYS[k] = 1 }`; none when no key is pressed (45_timers_keys R173). -/
def lowestKey (keys : Word) : Option Nat := (List.range 16).find? (fun k => keys.getLsbD k)

end Sys2Proof.Machine
end

