-- ==== Sys2Proof/Machine/Alu.lean ====
section
/-!
DEFINITION. Register loads, logic, arithmetic, shifts and the random byte (42_alu).
-/

namespace Sys2Proof.Machine

/-- Write the result to V[x] and then the flag to VF, so that with x = 0xF the flag stays (42_alu, D10; log 12). -/
def State.setResultFlag (x : Reg) (result : Byte) (flag : Bool) (s : State) : State :=
  (s.setReg x result).setReg vf (flagByte flag)

/-- LD Vx, kk (R120). -/
def execLdByte (x : Reg) (kk : Byte) (s : State) : Result := succeed (s.setReg x kk)

/-- ADD Vx, kk (R121): wraps, no flag. -/
def execAddByte (x : Reg) (kk : Byte) (s : State) : Result := succeed (s.setReg x (s.reg x + kk))

/-- LD Vx, Vy (R122). -/
def execLdReg (x y : Reg) (s : State) : Result := succeed (s.setReg x (s.reg y))

/-- OR Vx, Vy (R123): no flag. -/
def execOrReg (x y : Reg) (s : State) : Result := succeed (s.setReg x (s.reg x ||| s.reg y))

/-- AND Vx, Vy (R124): no flag. -/
def execAndReg (x y : Reg) (s : State) : Result := succeed (s.setReg x (s.reg x &&& s.reg y))

/-- XOR Vx, Vy (R125): no flag. -/
def execXorReg (x y : Reg) (s : State) : Result := succeed (s.setReg x (s.reg x ^^^ s.reg y))

/-- ADD Vx, Vy (R126): VF is the carry. -/
def execAddReg (x y : Reg) (s : State) : Result :=
  succeed (s.setResultFlag x (s.reg x + s.reg y) (addCarry (s.reg x) (s.reg y)))

/-- SUB Vx, Vy (R127): VF is NOT borrow. -/
def execSub (x y : Reg) (s : State) : Result :=
  succeed (s.setResultFlag x (s.reg x - s.reg y) (notBorrow (s.reg x) (s.reg y)))

/-- SHR Vx, Vy (R128): VF is the bit shifted out. -/
def execShr (x y : Reg) (s : State) : Result :=
  succeed (s.setResultFlag x (s.shiftSource x y >>> 1) (lowBit (s.shiftSource x y)))

/-- SUBN Vx, Vy (R129): VF is NOT borrow. -/
def execSubn (x y : Reg) (s : State) : Result :=
  succeed (s.setResultFlag x (s.reg y - s.reg x) (notBorrow (s.reg y) (s.reg x)))

/-- SHL Vx, Vy (R130): VF is the bit shifted out. -/
def execShl (x y : Reg) (s : State) : Result :=
  succeed (s.setResultFlag x (s.shiftSource x y <<< 1) (highBit (s.shiftSource x y)))

/-- RND Vx, kk (R131): the step's draw, masked. -/
def execRnd (x : Reg) (kk : Byte) (s : State) : Result := succeed (s.setReg x (s.randomDraw &&& kk))

end Sys2Proof.Machine
end

