-- ==== Sys2Proof/Machine/ControlFlow.lean ====
section
/-!
DEFINITION. Control transfer (41_control_flow) and the invalid operation (40_step R93). While an instruction executes, PC
holds its address plus 2 (40_step R91).
-/

namespace Sys2Proof.Machine

/-- RET (R101). -/
def execRet (s : State) : Result :=
  match s.pop with
  | some (target, t) => succeed (t.setPc target)
  | none => raise .stackEmpty s

/-- JP nnn (R102). -/
def execJp (nnn : Addr) (s : State) : Result := succeed (s.setPc (zext16 nnn))

/-- CALL nnn (R103): PC is the return address. -/
def execCall (nnn : Addr) (s : State) : Result :=
  match s.push s.pc with
  | some t => succeed (t.setPc (zext16 nnn))
  | none => raise .stackOverflow s

/-- SE Vx, kk (R104). -/
def execSeByte (x : Reg) (kk : Byte) (s : State) : Result := succeed (s.skipIf (s.reg x == kk))

/-- SNE Vx, kk (R105). -/
def execSneByte (x : Reg) (kk : Byte) (s : State) : Result := succeed (s.skipIf (s.reg x != kk))

/-- SE Vx, Vy (R106). -/
def execSeReg (x y : Reg) (s : State) : Result := succeed (s.skipIf (s.reg x == s.reg y))

/-- SNE Vx, Vy (R107). -/
def execSneReg (x y : Reg) (s : State) : Result := succeed (s.skipIf (s.reg x != s.reg y))

/-- JP V0, nnn, in jump mode JP Vx, xnn (R108). -/
def execJpV (nnn : Addr) (s : State) : Result :=
  succeed (s.setPc (zext16 nnn + (s.jumpOffset nnn).setWidth 16))

/-- INVALID (40_step R93): nothing is written, PC is already past the word, and the machine goes on. -/
def execInvalid (_ : Word) (s : State) : Result := raise .invalidOpcode s

end Sys2Proof.Machine
end

