-- ==== Sys2Proof/Machine/Display.lean ====
section
/-!
DEFINITION. The display instructions (44_display).
-/

namespace Sys2Proof.Machine

/-- CLS (R160). -/
def execCls (s : State) : Result := succeed (s.setFb Screen.blank)

/-- XOR one sprite bit into a pixel; the second component remembers whether a lit pixel was erased (R161). -/
def drawBit (px py : Nat) (bit : Bool) (p : Screen × Bool) : Screen × Bool :=
  let old := p.1.pixel px py
  (p.1.setPixel px py (old ^^ bit), p.2 || (bit && old))

/-- One sprite byte at row `py`, from column `ox`, most significant bit leftmost (R161). -/
def drawRow (ox py : Nat) (b : Byte) (p : Screen × Bool) : Screen × Bool :=
  (List.range 8).foldl (fun p col => drawBit (ox + col) py (b.getLsbD (7 - col)) p) p

/-- The sprite's bytes, one row each, from row `py` down (R161). -/
def drawRows (ox : Nat) : Nat → List Byte → Screen × Bool → Screen × Bool
  | _, [], p => p
  | py, b :: bs, p => drawRows ox (py + 1) bs (drawRow ox py b p)

/-- DRW Vx, Vy, n (R161). The origin is read before VF changes (D11; log 13), and VF, which nothing reads during the
drawing, is written once at its end (log 27). -/
def execDrw (x y : Reg) (n : Nibble) (s : State) : Result :=
  if s.runInBounds n.toNat then
    let r := drawRows (s.reg x).toNat (s.reg y).toNat (s.readRun s.regI.toNat n.toNat) (s.fb, false)
    succeed ((s.setFb r.1).setReg vf (flagByte r.2))
  else raise .memoryOutOfBounds s

end Sys2Proof.Machine
end

