-- ==== Sys2Proof/Machine/IndexMemory.lean ====
section
/-!
DEFINITION. The index register and the memory transfers through it (43_index_memory).
-/

namespace Sys2Proof.Machine

/-- LD I, nnn (R140). -/
def execLdI (nnn : Addr) (s : State) : Result := succeed (s.setI (zext16 nnn))

/-- ADD I, Vx (R141): wraps at 16 bits, no mask, no flag (D9; log 11). -/
def execAddI (x : Reg) (s : State) : Result := succeed (s.setI (s.regI + (s.reg x).setWidth 16))

/-- The address of glyph v: `FONT_BASE + 5 * v`, v not masked to a digit (R142). -/
def glyphAddress (fontBase : FontBase) (v : Byte) : Word := BitVec.ofNat 16 (fontBase.val + 5 * v.toNat)

/-- LD F, Vx (R142). -/
def execLdF (x : Reg) (s : State) : Result := succeed (s.setI (glyphAddress s.fontBase (s.reg x)))

/-- The three decimal digits of a byte, hundreds first (R143). -/
def bcd (v : Byte) : List Byte :=
  [BitVec.ofNat 8 (v.toNat / 100), BitVec.ofNat 8 (v.toNat / 10 % 10), BitVec.ofNat 8 (v.toNat % 10)]

/-- LD B, Vx (R143): the digits at I, I+1, I+2. -/
def execLdB (x : Reg) (s : State) : Result :=
  if s.runInBounds 3 then succeed (s.writeRun s.regI.toNat (bcd (s.reg x))) else raise .memoryOutOfBounds s

/-- LD [I], Vx (R145): V0..V[x] to memory at I, then I by the index flag. -/
def execStRegs (x : Reg) (s : State) : Result :=
  if s.runInBounds (x.toNat + 1) then
    succeed ((s.writeRun s.regI.toNat (s.regsUpTo x)).setI (s.indexAfterCopy x))
  else raise .memoryOutOfBounds s

/-- V0..V[x] loaded from memory at I, the other registers as they were (R146). -/
def State.loadRegs (x : Reg) (s : State) : State :=
  s.setRegs (fun j => if j.toNat ≤ x.toNat then s.readByte (s.regI.toNat + j.toNat) else s.reg j)

/-- LD Vx, [I] (R146): memory at I to V0..V[x], then I by the index flag. -/
def execLdRegs (x : Reg) (s : State) : Result :=
  if s.runInBounds (x.toNat + 1) then succeed ((s.loadRegs x).setI (s.indexAfterCopy x))
  else raise .memoryOutOfBounds s

end Sys2Proof.Machine
end

