-- ==== Sys2Proof/Machine/TimersKeys.lean ====
section
/-!
DEFINITION. The keypad and timer instructions (45_timers_keys). DT and ST are already ticked here (40_step R91).
-/

namespace Sys2Proof.Machine

/-- SKP Vx (R170). -/
def execSkp (x : Reg) (s : State) : Result := succeed (s.skipIf (s.pressed (s.reg x)))

/-- SKNP Vx (R171). -/
def execSknp (x : Reg) (s : State) : Result := succeed (s.skipIf (!s.pressed (s.reg x)))

/-- LD Vx, DT (R172). -/
def execLdVxDt (x : Reg) (s : State) : Result := succeed (s.setReg x s.dt)

/-- LD Vx, K (R173): with no key pressed PC goes back to this instruction, which is no error. -/
def execLdVxK (x : Reg) (s : State) : Result :=
  match lowestKey s.keys with
  | some k => succeed (s.setReg x (BitVec.ofNat 8 k))
  | none => succeed (s.setPc (s.pc - 2#16))

/-- LD DT, Vx (R174). -/
def execLdDtVx (x : Reg) (s : State) : Result := succeed (s.setDt (s.reg x))

/-- LD ST, Vx (R175). -/
def execLdStVx (x : Reg) (s : State) : Result := succeed (s.setSt (s.reg x))

end Sys2Proof.Machine
end

