-- ==== Sys2Proof/Machine/Step.lean ====
section
/-!
DEFINITION. One step: fetch, advance PC, decode, tick, execute (40_step R90).
-/

namespace Sys2Proof.Machine

/-- `Step()` (40_step R90). A fetch past the end changes nothing and reports MemoryOutOfBounds (20_memory R56, D6; log 9). -/
def step (s : State) : Host.Outcome State Fault Refusal :=
  match s.fetch? with
  | none => raise .memoryOutOfBounds s
  | some w => exec (decodeWord w) s.advance

/-- The state with an opcode-table word stored where the next fetch reads it, and nothing else changed. Programs come to
memory by the host's ROM load alone (70_reset R202, R204; log 19); this stands for that load. -/
def State.withFetchWord (s : State) (nbits w : Nat) : State :=
  s.placeWord (BitVec.ofNat 16 (w % 2 ^ nbits))

end Sys2Proof.Machine
end

