-- ==== Sys2Proof/Machine/HostOps.lean ====
section
/-!
DEFINITION. What the host can do to the core between steps (70_reset R204 to R214), and what it can read. Construction is
State.construct and the step entry point is step.
-/

namespace Sys2Proof.Machine

/-- What a ROM load returns (70_reset R204, R205). RomReadFailure and RomNotFound are file handling, out of scope
(00_scope R5). -/
inductive LoadOutcome where
  | success
  | romTooLarge
deriving DecidableEq, Repr

/-- `LoadRom(bytes, len)` (70_reset R204): copied verbatim from 0x200 up, or refused whole when longer than 3584 bytes. -/
def loadRom (bytes : List Byte) (s : State) : LoadOutcome × State :=
  if bytes.length ≤ Config.maxRom then (.success, s.writeRun Config.progStart bytes) else (.romTooLarge, s)

/-- `SetKey(k, pressed)` (70_reset R212): an index outside 0..15 is not part of the interface (log 29). -/
def setKey (k : Nat) (pressed : Bool) (s : State) : Result :=
  if k < 16 then
    let bit : Word := 1#16 <<< k
    .next { s with keys := if pressed then s.keys ||| bit else s.keys &&& ~~~bit }
  else .refused (.keyOutOfRange k)

/-- `SetModes(shift, jump, index)` (70_reset R213). -/
def setModes (m : Modes) (s : State) : State := { s with modes := m }

/-- Toggle MODES.shift (70_reset R213). -/
def toggleShift (s : State) : State := setModes { s.modes with shift := !s.modes.shift } s

/-- Toggle MODES.jump (70_reset R213). -/
def toggleJump (s : State) : State := setModes { s.modes with jump := !s.modes.jump } s

/-- Toggle MODES.index (70_reset R213). -/
def toggleIndex (s : State) : State := setModes { s.modes with index := !s.modes.index } s

/-- FB as the host sees it: 2048 bytes of 0 or 1, row-major, width 64 (10_state R36, 70_reset R211, D23). -/
def State.frame (s : State) : List Byte := s.fb.toList.flatMap (fun row => row.toList.map flagByte)

/-- `Pressed(k)` for a key k in 0..15 (70_reset R211); none outside the interface. -/
def State.hostPressed (s : State) (k : Nat) : Option Bool := if k < 16 then some (s.keys.getLsbD k) else none

/-- Everything the read-only accessors show (70_reset R211); memory has none. -/
structure Snapshot where
  pc : Word
  regI : Word
  sp : Nat
  dt : Byte
  st : Byte
  v : List Byte
  frame : List Byte
  stack : List Word
  pressed : List Bool
deriving DecidableEq, Repr

/-- The accessors together (70_reset R211); all 16 stack slots are shown (D22). -/
def State.snapshot (s : State) : Snapshot where
  pc := s.pc
  regI := s.regI
  sp := s.sp.val
  dt := s.dt
  st := s.st
  v := s.v.toList
  frame := s.frame
  stack := s.stack.toList
  pressed := (List.range 16).map (fun k => s.keys.getLsbD k)

end Sys2Proof.Machine
end

