-- ==== Sys2Proof/Safety.lean ====
section
/-!
DEFINITION. What counts as a successful run (70_reset R215, R216), and the vocabulary of the claims: what an instruction may
write, and that it changes nothing else.
-/

namespace Sys2Proof.Safety

open Sys2Proof.Machine

/-! ## Runs -/

/-- The observation of a step: any outcome but success is a fault of the run (70_reset R215, D18; log 17). -/
def observe : Result → Result
  | .next s =>
    match s.outcome with
    | .success => .next s
    | .error e => .fault e
  | .fault e => .fault e
  | .refused r => .refused r

/-- What the host can do next (70_reset R210). -/
inductive HostEvent where
  | step
  | setKey (k : Nat) (pressed : Bool)
  | setModes (m : Modes)
  | loadRom (bytes : List Byte)
deriving DecidableEq, Repr

/-- One event of a run. A ROM that does not load leaves the state as it was (70_reset R205). -/
def HostEvent.apply : HostEvent → State → Result
  | .step, s => observe (Machine.step s)
  | .setKey k pressed, s => Machine.setKey k pressed s
  | .setModes m, s => .next (Machine.setModes m s)
  | .loadRom bytes, s => .next (Machine.loadRom bytes s).2

/-- A run: the events in order, ending at the first unsuccessful step (70_reset R216). -/
def run : List HostEvent → State → Result
  | [], s => .next s
  | e :: es, s =>
    match e.apply s with
    | .next t => run es t
    | .fault f => .fault f
    | .refused r => .refused r

/-- The run ends successfully in `t` (70_reset R216). -/
def EndsIn (es : List HostEvent) (s t : State) : Prop := run es s = .next t

/-- The memory of a state is in its canonical form. -/
abbrev Canonical (s : State) : Prop := Memory.wf s.fontBase s.mem

/-! ## What an instruction may write -/

/-- The parts of the state something may change; what is not named stays. -/
structure Writes where
  /-- V registers. -/
  reg : Reg → Bool := fun _ => false
  /-- I. -/
  regI : Bool := false
  /-- PC. -/
  pc : Bool := false
  /-- STACK and SP. -/
  stack : Bool := false
  /-- DT. -/
  dt : Bool := false
  /-- ST. -/
  st : Bool := false
  /-- FB. -/
  fb : Bool := false
  /-- Bytes of memory, by address. -/
  mem : Nat → Bool := fun _ => false

/-- From `s` to `t` nothing changed but what `w` names. KEYS, MODES, FONT_BASE and the draws' number never change while an
instruction executes. -/
structure Frame (w : Writes) (s t : State) : Prop where
  reg : ∀ j, w.reg j = false → t.reg j = s.reg j
  regI : w.regI = false → t.regI = s.regI
  pc : w.pc = false → t.pc = s.pc
  stack : w.stack = false → t.stack = s.stack ∧ t.sp = s.sp
  dt : w.dt = false → t.dt = s.dt
  st : w.st = false → t.st = s.st
  fb : w.fb = false → t.fb = s.fb
  mem : ∀ a, w.mem a = false → t.readByte a = s.readByte a
  keys : t.keys = s.keys
  modes : t.modes = s.modes
  fontBase : t.fontBase = s.fontBase
  drawIndex : t.drawIndex = s.drawIndex

/-- The n bytes from a up, as a set of addresses. -/
def bytesAt (a n : Nat) (b : Nat) : Bool := decide (a ≤ b ∧ b < a + n)

/-- One register. -/
def only (x : Reg) (j : Reg) : Bool := j == x

/-- A register and VF. -/
def andFlag (x : Reg) (j : Reg) : Bool := j == x || j == vf

/-- What each instruction may write, from the writers the spec lists: V (10_state R22, R23), PC (R25), I (R26), the stack
(R30), the timers (R31, R32), FB (R36) and memory (20_memory R51). -/
def mayWrite : Instr → State → Writes
  | .cls, _ => { fb := true }
  | .ret, _ | .call _, _ => { pc := true, stack := true }
  | .jp _, _ | .jpV _, _ => { pc := true }
  | .seByte _ _, _ | .sneByte _ _, _ | .seReg _ _, _ | .sneReg _ _, _ | .skp _, _ | .sknp _, _ => { pc := true }
  | .ldByte x _, _ | .addByte x _, _ | .ldReg x _, _ | .orReg x _, _ | .andReg x _, _ | .xorReg x _, _ => { reg := only x }
  | .addReg x _, _ | .sub x _, _ | .shr x _, _ | .subn x _, _ | .shl x _, _ => { reg := andFlag x }
  | .rnd x _, _ | .ldVxDt x, _ => { reg := only x }
  | .ldI _, _ | .addI _, _ | .ldF _, _ => { regI := true }
  | .drw _ _ _, _ => { reg := only vf, fb := true }
  | .ldVxK x, _ => { reg := only x, pc := true }
  | .ldDtVx _, _ => { dt := true }
  | .ldStVx _, _ => { st := true }
  | .ldB _, s => { mem := bytesAt s.regI.toNat 3 }
  | .stRegs x, s => { mem := bytesAt s.regI.toNat (x.toNat + 1), regI := s.modes.index }
  | .ldRegs x, s => { reg := fun j => decide (j.toNat ≤ x.toNat), regI := s.modes.index }
  | .invalid _, _ => {}

/-! ## When an instruction reports an error -/

/-- MemoryOutOfBounds when the n bytes at I do not fit the 4096 (60_exceptions R181). -/
def boundOutcome (s : State) (n : Nat) : StepOutcome :=
  if 4096 < s.regI.toNat + n then .error .memoryOutOfBounds else .success

/-- The outcome of each instruction, from the table of causes (60_exceptions R181). -/
def outcomeOf : Instr → State → StepOutcome
  | .invalid _, _ => .error .invalidOpcode
  | .ret, s => if s.sp.val = 0 then .error .stackEmpty else .success
  | .call _, s => if s.sp.val = 16 then .error .stackOverflow else .success
  | .drw _ _ n, s => boundOutcome s n.toNat
  | .ldB _, s => boundOutcome s 3
  | .stRegs x, s | .ldRegs x, s => boundOutcome s (x.toNat + 1)
  | .cls, _ | .jp _, _ | .seByte _ _, _ | .sneByte _ _, _ | .seReg _ _, _ | .ldByte _ _, _ | .addByte _ _, _
  | .ldReg _ _, _ | .orReg _ _, _ | .andReg _ _, _ | .xorReg _ _, _ | .addReg _ _, _ | .sub _ _, _ | .shr _ _, _
  | .subn _ _, _ | .shl _ _, _ | .sneReg _ _, _ | .ldI _, _ | .jpV _, _ | .rnd _ _, _ | .skp _, _ | .sknp _, _
  | .ldVxDt _, _ | .ldVxK _, _ | .ldDtVx _, _ | .ldStVx _, _ | .addI _, _ | .ldF _, _ => .success

/-! ## Comparing two executions -/

/-- Apply a change to the state an instruction or a step leaves. -/
def onNext (f : State → State) : Result → Result
  | .next s => .next (f s)
  | .fault e => .fault e
  | .refused r => .refused r

/-- The state with other mode flags. -/
def withModes (m : Modes) (s : State) : State := { s with modes := m }

/-- The state with another number for its next draws. -/
def withDraws (n : Nat) (s : State) : State := { s with drawIndex := n }

/-- The instructions whose result a mode flag selects (10_state R44). -/
def readsModes : Instr → Bool
  | .shr _ _ | .shl _ _ | .jpV _ | .stRegs _ | .ldRegs _ => true
  | .cls | .ret | .jp _ | .call _ | .seByte _ _ | .sneByte _ _ | .seReg _ _ | .ldByte _ _ | .addByte _ _ | .ldReg _ _
  | .orReg _ _ | .andReg _ _ | .xorReg _ _ | .addReg _ _ | .sub _ _ | .subn _ _ | .sneReg _ _ | .ldI _ | .rnd _ _
  | .drw _ _ _ | .skp _ | .sknp _ | .ldVxDt _ | .ldVxK _ | .ldDtVx _ | .ldStVx _ | .addI _ | .ldF _ | .ldB _
  | .invalid _ => false

/-- Whether an instruction reads a draw here: CXKK always, EX9E and EXA1 when V[x] names no key (40_step R90). -/
def readsDraw : Instr → State → Bool
  | .rnd _ _, _ => true
  | .skp x, s | .sknp x, s => decide (16 ≤ (s.reg x).toNat)
  | .cls, _ | .ret, _ | .jp _, _ | .call _, _ | .seByte _ _, _ | .sneByte _ _, _ | .seReg _ _, _ | .ldByte _ _, _
  | .addByte _ _, _ | .ldReg _ _, _ | .orReg _ _, _ | .andReg _ _, _ | .xorReg _ _, _ | .addReg _ _, _ | .sub _ _, _
  | .shr _ _, _ | .subn _ _, _ | .shl _ _, _ | .sneReg _ _, _ | .ldI _, _ | .jpV _, _ | .drw _ _ _, _ | .ldVxDt _, _
  | .ldVxK _, _ | .ldDtVx _, _ | .ldStVx _, _ | .addI _, _ | .ldF _, _ | .ldB _, _ | .stRegs _, _ | .ldRegs _, _
  | .invalid _, _ => false

/-! ## The sprite as a picture -/

/-- Whether DRW's sprite of n rows at I, its origin at column `ox` and row `oy`, has a set bit at pixel (px, py): the pixel's
distance from the origin, wrapping, falls inside the 8 by n sprite on a set bit, the leftmost being bit 7 (44_display R161). -/
def spriteBit (s : State) (ox oy n px py : Nat) : Bool :=
  let col := (px + 64 - ox % 64) % 64
  let row := (py + 32 - oy % 32) % 32
  decide (col < 8 ∧ row < n) && (s.readByte (s.regI.toNat + row)).getLsbD (7 - col)

end Sys2Proof.Safety
end

