-- ==== Sys2Proof/Certificates/Slice0/Obligations.lean ====
section
/-!
DEFINITION. The statements for the provers. While an instruction executes, PC is already past it and the timers have ticked
(40_step R91): the statements about exec speak of that state; the statements about step speak of the state before.
-/

open Sys2Proof Sys2Proof.Machine Sys2Proof.Safety

/-! ## Encoding -/

/-- Nine words written out from the patterns of 30_encoding R75 (one or more per family) decode to the instruction they stand
for; and 5121, off the pattern 5XY0 by its low nibble, decodes to INVALID, which is the model's choice (log 8, the spec's
D5). -/
def Obligations.WrittenWordsDecode : Prop :=
  decodeWord 0x00E0#16 = .cls ∧ decodeWord 0x2210#16 = .call 0x210#12 ∧ decodeWord 0x5120#16 = .seReg 1#4 2#4 ∧
  decodeWord 0x820E#16 = .shl 2#4 0#4 ∧ decodeWord 0xB20A#16 = .jpV 0x20A#12 ∧ decodeWord 0xC30F#16 = .rnd 3#4 0x0F#8 ∧
  decodeWord 0xD125#16 = .drw 1#4 2#4 5#4 ∧ decodeWord 0xE1A1#16 = .sknp 1#4 ∧ decodeWord 0xF255#16 = .stRegs 2#4 ∧
  decodeWord 0x5121#16 = .invalid 0x5121#16

/-- Decoding the bytes an instruction encodes to gives it back, with every operand at every value, and leaves the bytes after
it (30_encoding R75, R76; the decoder's strictness is the spec's D5). -/
def Obligations.DecodeOfEncode : Prop :=
  ∀ (i : Instr) (rest : List Byte), WellFormed i → decode (encodeBytes i ++ rest) = .ok (i, rest)

/-- Every word decodes to a well-formed instruction whose encoding is that word: no bit is dropped (30_encoding R74). -/
def Obligations.EncodeOfDecode : Prop :=
  ∀ w : Word, WellFormed (decodeWord w) ∧ encode (decodeWord w) = w

/-- The decoder of 30_encoding R76 is the opcode map of R75: a word decodes to the row it matches, and to INVALID when no row
matches (D5). -/
def Obligations.DecodeFollowsOpcodeMap : Prop :=
  ∀ w : Word,
    (∀ row ∈ opcodeMap, matchesRow w row = true ↔ (decodeWord w).row = some row) ∧
    ((∀ row ∈ opcodeMap, matchesRow w row = false) ↔ decodeWord w = .invalid w)

/-- No word matches two rows of the opcode map, and the map has no row twice (30_encoding R75, D5). -/
def Obligations.OpcodeRowsDisjoint : Prop :=
  opcodeMap.Nodup ∧ opcodeMap.length = 34 ∧
  ∀ (w : Word) (r r' : Word × Word), r ∈ opcodeMap → r' ∈ opcodeMap →
    matchesRow w r = true → matchesRow w r' = true → r = r'

/-- The words that decode to INVALID are exactly the six classes of 30_encoding R77 (D5). -/
def Obligations.InvalidWordsAreTheSixClasses : Prop :=
  ∀ w : Word, decodeWord w = .invalid w ↔ isInvalidWord w = true

/-! ## The step -/

/-- A fetch reads the byte at PC as the high byte and the byte at PC + 1 as the low byte (20_memory R55). -/
def Obligations.FetchIsBigEndian : Prop :=
  ∀ s : State, s.fetch16.toNat = 256 * (s.readByte s.pc.toNat).toNat + (s.readByte (s.pc.toNat + 1)).toNat

/-- When the bytes at PC decode to i, the step is exec of i on the state with PC past the word, both timers down by one unless
zero, and the next draws (40_step R90; the bound on PC is the spec's D6; log 9). -/
def Obligations.StepRunsDecodedInstruction : Prop :=
  ∀ (s : State) (i : Instr), s.pc.toNat ≤ 0xFFE →
    decode [s.readByte s.pc.toNat, s.readByte (s.pc.toNat + 1)] = .ok (i, []) → WellFormed i →
    step s = exec i { s with
      pc := s.pc + 2#16
      dt := if s.dt = 0#8 then 0#8 else s.dt - 1#8
      st := if s.st = 0#8 then 0#8 else s.st - 1#8
      drawIndex := s.drawIndex + 1 }

/-- A fetch at PC > 0xFFE reports MemoryOutOfBounds and changes nothing else (20_memory R56, the spec's D6; log 9). -/
def Obligations.FetchPastEndChangesNothing : Prop :=
  ∀ s : State, 0xFFE < s.pc.toNat → step s = .next { s with outcome := .error .memoryOutOfBounds }

/-- The step is total: every state has exactly one next state, and so has every instruction in it (40_step R92). -/
def Obligations.StepIsTotal : Prop :=
  (∀ s : State, ∃ t, step s = .next t) ∧ ∀ (i : Instr) (s : State), ∃ t, exec i s = .next t

/-- In every step whose fetch succeeds both timers tick down by one unless zero; FX15 and FX18 then overwrite theirs, and FX07
reads DT after the tick (10_state R33, 40_step R91; ticking on errors is the spec's D24; log 22). -/
def Obligations.TimersTickEveryStep : Prop :=
  ∀ s : State, s.pc.toNat ≤ 0xFFE → ∃ t, step s = .next t ∧
    (∀ x, decodeWord s.fetch16 = .ldDtVx x → t.dt = s.reg x) ∧
    (∀ x, decodeWord s.fetch16 = .ldStVx x → t.st = s.reg x) ∧
    (∀ x, decodeWord s.fetch16 = .ldVxDt x → (t.reg x).toNat = s.dt.toNat - 1) ∧
    ((∀ x, decodeWord s.fetch16 ≠ .ldDtVx x) → t.dt.toNat = s.dt.toNat - 1) ∧
    ((∀ x, decodeWord s.fetch16 ≠ .ldStVx x) → t.st.toNat = s.st.toNat - 1)

/-- INVALID raises InvalidOpcode always and writes nothing; any word of the six classes is INVALID, and the step that runs one
leaves PC past it, the timers ticked and registers and memory as they were (40_step R93; that each such word is INVALID is the
spec's D5, log 8, and the tick its D24, log 22). -/
def Obligations.InvalidReportsInvalidOpcode : Prop :=
  ∀ (w : Word) (s : State), (isInvalidWord w = true → decodeWord w = .invalid w) ∧
    (∃ t, exec (.invalid w) s = .next t ∧ t.outcome = .error .invalidOpcode ∧ Frame {} s t) ∧
    (s.pc.toNat ≤ 0xFFE → isInvalidWord s.fetch16 = true →
      ∃ t, step s = .next t ∧ t.outcome = .error .invalidOpcode ∧ t.pc = s.pc + 2#16 ∧ t.dt.toNat = s.dt.toNat - 1 ∧
        t.st.toNat = s.st.toNat - 1 ∧ (∀ j, t.reg j = s.reg j) ∧ ∀ a, t.readByte a = s.readByte a)

/-! ## Control flow -/

/-- JP nnn: PC := nnn, zero-extended, and nothing else (41_control_flow R102). -/
def Obligations.JumpSetsPc : Prop :=
  ∀ (nnn : Addr) (s : State), decodeWord (formatA 0x1#4 nnn) = .jp nnn ∧
    ∃ t, exec (.jp nnn) s = .next t ∧ t.outcome = .success ∧ t.pc.toNat = nnn.toNat ∧ Frame { pc := true } s t

/-- SE and SNE with a byte: PC + 2 modulo 2^16 exactly when V[x] = kk, or V[x] ≠ kk (41_control_flow R104, R105). -/
def Obligations.ByteSkipsCompare : Prop :=
  ∀ (x : Reg) (kk : Byte) (s : State),
    decodeWord (formatXK 0x3#4 x kk) = .seByte x kk ∧ decodeWord (formatXK 0x4#4 x kk) = .sneByte x kk ∧
    (∃ t, exec (.seByte x kk) s = .next t ∧ t.outcome = .success ∧
      t.pc.toNat = (if s.reg x = kk then (s.pc.toNat + 2) % 65536 else s.pc.toNat) ∧ Frame { pc := true } s t) ∧
    ∃ t, exec (.sneByte x kk) s = .next t ∧ t.outcome = .success ∧
      t.pc.toNat = (if s.reg x = kk then s.pc.toNat else (s.pc.toNat + 2) % 65536) ∧ Frame { pc := true } s t

/-- SE and SNE with a register: PC + 2 modulo 2^16 exactly when V[x] = V[y], or V[x] ≠ V[y] (41_control_flow R106, R107).
That 5XYn and 9XYn with another low nibble than 0 decode to INVALID is the model's choice (30_encoding R77, the spec's D5;
log 8). -/
def Obligations.RegisterSkipsCompare : Prop :=
  ∀ (x y : Reg) (n : Nibble) (s : State),
    decodeWord (nibbles 0x5#4 x y n) = (if n = 0#4 then .seReg x y else .invalid (nibbles 0x5#4 x y n)) ∧
    decodeWord (nibbles 0x9#4 x y n) = (if n = 0#4 then .sneReg x y else .invalid (nibbles 0x9#4 x y n)) ∧
    (∃ t, exec (.seReg x y) s = .next t ∧ t.outcome = .success ∧
      t.pc.toNat = (if s.reg x = s.reg y then (s.pc.toNat + 2) % 65536 else s.pc.toNat) ∧ Frame { pc := true } s t) ∧
    ∃ t, exec (.sneReg x y) s = .next t ∧ t.outcome = .success ∧
      t.pc.toNat = (if s.reg x = s.reg y then s.pc.toNat else (s.pc.toNat + 2) % 65536) ∧ Frame { pc := true } s t

/-- BNNN jumps to nnn + V0, or in jump mode to nnn + V[x] with x = nnn[11:8] (41_control_flow R108). -/
def Obligations.ComputedJumpAddsRegister : Prop :=
  ∀ (nnn : Addr) (s : State), decodeWord (formatA 0xB#4 nnn) = .jpV nnn ∧
    ∃ t, exec (.jpV nnn) s = .next t ∧ t.outcome = .success ∧
      t.pc.toNat = nnn.toNat +
        (if s.modes.jump then s.reg (BitVec.ofNat 4 (nnn.toNat / 256)) else s.reg 0#4).toNat ∧
      Frame { pc := true } s t

/-- CALL with room on the stack pushes the return address and jumps (41_control_flow R103). -/
def Obligations.CallPushesReturnAddress : Prop :=
  ∀ (nnn : Addr) (s : State) (h : s.sp.val < 16), decodeWord (formatA 0x2#4 nnn) = .call nnn ∧
    ∃ t, exec (.call nnn) s = .next t ∧ t.outcome = .success ∧
      t.stack[s.sp.val] = s.pc ∧ (∀ (j : Nat) (hj : j < 16), j ≠ s.sp.val → t.stack[j] = s.stack[j]) ∧
      t.sp.val = s.sp.val + 1 ∧ t.pc.toNat = nnn.toNat ∧ Frame { pc := true, stack := true } s t

/-- RET with a live entry pops it into PC; the slot keeps its value (41_control_flow R101). -/
def Obligations.RetPopsReturnAddress : Prop :=
  ∀ (s : State) (h : 0 < s.sp.val),
    ∃ t, exec .ret s = .next t ∧ t.outcome = .success ∧ t.pc = s.stack[s.sp.val - 1] ∧ t.stack = s.stack ∧
      t.sp.val = s.sp.val - 1 ∧ Frame { pc := true, stack := true } s t

/-- CALL on a full stack and RET on an empty one report their error and write nothing, PC included (41_control_flow R101,
R103; the spec's D15 and D16; log 16). -/
def Obligations.StackErrorsWriteNothing : Prop :=
  (∀ (nnn : Addr) (s : State), s.sp.val = 16 →
    ∃ t, exec (.call nnn) s = .next t ∧ t.outcome = .error .stackOverflow ∧ Frame {} s t) ∧
  ∀ s : State, s.sp.val = 0 → ∃ t, exec .ret s = .next t ∧ t.outcome = .error .stackEmpty ∧ Frame {} s t

/-- The round-trip law: after a CALL step and any code that leaves SP and the live entries as the CALL left them, a RET step
leaves PC at the instruction after the CALL, SP and the live entries as before the CALL, and the return address in the slot
above them (41_control_flow R109). -/
def Obligations.CallRetRoundTrip : Prop :=
  ∀ (s t u : State) (nnn : Addr) (h : s.sp.val < 16),
    s.pc.toNat ≤ 0xFFE → decodeWord s.fetch16 = .call nnn → step s = .next t →
    u.sp = t.sp → (∀ (j : Nat) (hj : j < 16), j < t.sp.val → u.stack[j] = t.stack[j]) →
    u.pc.toNat ≤ 0xFFE → decodeWord u.fetch16 = .ret →
    ∃ r, step u = .next r ∧ r.outcome = .success ∧ r.pc = s.pc + 2#16 ∧ r.sp = s.sp ∧
      (∀ (j : Nat) (hj : j < 16), j < s.sp.val → r.stack[j] = s.stack[j]) ∧ r.stack[s.sp.val] = s.pc + 2#16

/-! ## Loads, logic, arithmetic -/

/-- 6XKK: V[x] := kk, and nothing else (42_alu R120). -/
def Obligations.LoadByteSetsRegister : Prop :=
  ∀ (x : Reg) (kk : Byte) (s : State), decodeWord (formatXK 0x6#4 x kk) = .ldByte x kk ∧
    ∃ t, exec (.ldByte x kk) s = .next t ∧ t.outcome = .success ∧ t.reg x = kk ∧ Frame { reg := only x } s t

/-- 7XKK: V[x] := V[x] + kk modulo 256, and no flag: with x other than F, VF is unchanged (42_alu R121). -/
def Obligations.AddByteWraps : Prop :=
  ∀ (x : Reg) (kk : Byte) (s : State), decodeWord (formatXK 0x7#4 x kk) = .addByte x kk ∧
    ∃ t, exec (.addByte x kk) s = .next t ∧ t.outcome = .success ∧
      (t.reg x).toNat = ((s.reg x).toNat + kk.toNat) % 256 ∧ Frame { reg := only x } s t

/-- 8XY0 to 8XY3: copy, OR, AND, XOR bit by bit into V[x], and no flag (42_alu R122, R123, R124, R125). -/
def Obligations.CopyAndLogicSetRegister : Prop :=
  ∀ (x y : Reg) (s : State),
    decodeWord (nibbles 0x8#4 x y 0x0#4) = .ldReg x y ∧ decodeWord (nibbles 0x8#4 x y 0x1#4) = .orReg x y ∧
    decodeWord (nibbles 0x8#4 x y 0x2#4) = .andReg x y ∧ decodeWord (nibbles 0x8#4 x y 0x3#4) = .xorReg x y ∧
    (∃ t, exec (.ldReg x y) s = .next t ∧ t.outcome = .success ∧ t.reg x = s.reg y ∧ Frame { reg := only x } s t) ∧
    (∃ t, exec (.orReg x y) s = .next t ∧ t.outcome = .success ∧
      (∀ k, (t.reg x).getLsbD k = ((s.reg x).getLsbD k || (s.reg y).getLsbD k)) ∧ Frame { reg := only x } s t) ∧
    (∃ t, exec (.andReg x y) s = .next t ∧ t.outcome = .success ∧
      (∀ k, (t.reg x).getLsbD k = ((s.reg x).getLsbD k && (s.reg y).getLsbD k)) ∧ Frame { reg := only x } s t) ∧
    ∃ t, exec (.xorReg x y) s = .next t ∧ t.outcome = .success ∧
      (∀ k, (t.reg x).getLsbD k = ((s.reg x).getLsbD k ^^ (s.reg y).getLsbD k)) ∧ Frame { reg := only x } s t

/-- 8XY4, 8XY5 and 8XY7 with x other than F: the sum or difference modulo 256 in V[x], the carry or NOT borrow of the operands
before the write in VF (42_alu R126, R127, R129). The form x = F is FlagWinsWhenDestinationIsVf. -/
def Obligations.AddAndSubtractSetFlag : Prop :=
  ∀ (x y : Reg) (s : State), x ≠ vf →
    (decodeWord (nibbles 0x8#4 x y 0x4#4) = .addReg x y ∧ decodeWord (nibbles 0x8#4 x y 0x5#4) = .sub x y ∧
      decodeWord (nibbles 0x8#4 x y 0x7#4) = .subn x y) ∧
    (∃ t, exec (.addReg x y) s = .next t ∧ t.outcome = .success ∧
      (t.reg x).toNat = ((s.reg x).toNat + (s.reg y).toNat) % 256 ∧
      t.reg vf = (if 255 < (s.reg x).toNat + (s.reg y).toNat then 1#8 else 0#8) ∧ Frame { reg := andFlag x } s t) ∧
    (∃ t, exec (.sub x y) s = .next t ∧ t.outcome = .success ∧
      (t.reg x).toNat = ((s.reg x).toNat + 256 - (s.reg y).toNat) % 256 ∧
      t.reg vf = (if (s.reg x).toNat ≥ (s.reg y).toNat then 1#8 else 0#8) ∧ Frame { reg := andFlag x } s t) ∧
    ∃ t, exec (.subn x y) s = .next t ∧ t.outcome = .success ∧
      (t.reg x).toNat = ((s.reg y).toNat + 256 - (s.reg x).toNat) % 256 ∧
      t.reg vf = (if (s.reg y).toNat ≥ (s.reg x).toNat then 1#8 else 0#8) ∧ Frame { reg := andFlag x } s t

/-- 8XY6 and 8XYE with x other than F: V[y] in shift mode, else V[x], halved or doubled modulo 256 into V[x], and the bit
shifted out in VF (42_alu R128, R130). The form x = F is FlagWinsWhenDestinationIsVf. -/
def Obligations.ShiftsSetFlag : Prop :=
  ∀ (x y : Reg) (s : State) (v : Nat), x ≠ vf → v = (if s.modes.shift then s.reg y else s.reg x).toNat →
    (decodeWord (nibbles 0x8#4 x y 0x6#4) = .shr x y ∧ decodeWord (nibbles 0x8#4 x y 0xE#4) = .shl x y) ∧
    (∃ t, exec (.shr x y) s = .next t ∧ t.outcome = .success ∧ (t.reg x).toNat = v / 2 ∧
      (t.reg vf).toNat = v % 2 ∧ Frame { reg := andFlag x } s t) ∧
    ∃ t, exec (.shl x y) s = .next t ∧ t.outcome = .success ∧ (t.reg x).toNat = 2 * v % 256 ∧
      (t.reg vf).toNat = v / 128 ∧ Frame { reg := andFlag x } s t

/-- 8FY4 to 8FY7 and 8FYE: the flag, from the operands before the write, is what VF ends as (42_alu R126 to R130; the order of
the two writes is the spec's D10; log 12). -/
def Obligations.FlagWinsWhenDestinationIsVf : Prop :=
  ∀ (y : Reg) (s : State) (v : Nat), v = (if s.modes.shift then s.reg y else s.reg vf).toNat →
    (∃ t, exec (.addReg vf y) s = .next t ∧ t.outcome = .success ∧
      t.reg vf = (if 255 < (s.reg vf).toNat + (s.reg y).toNat then 1#8 else 0#8) ∧ Frame { reg := only vf } s t) ∧
    (∃ t, exec (.sub vf y) s = .next t ∧ t.outcome = .success ∧
      t.reg vf = (if (s.reg vf).toNat ≥ (s.reg y).toNat then 1#8 else 0#8) ∧ Frame { reg := only vf } s t) ∧
    (∃ t, exec (.subn vf y) s = .next t ∧ t.outcome = .success ∧
      t.reg vf = (if (s.reg y).toNat ≥ (s.reg vf).toNat then 1#8 else 0#8) ∧ Frame { reg := only vf } s t) ∧
    (∃ t, exec (.shr vf y) s = .next t ∧ t.outcome = .success ∧ (t.reg vf).toNat = v % 2 ∧
      Frame { reg := only vf } s t) ∧
    ∃ t, exec (.shl vf y) s = .next t ∧ t.outcome = .success ∧ (t.reg vf).toNat = v / 128 ∧
      Frame { reg := only vf } s t

/-- CXKK: V[x] is the step's random draw, whatever it is, masked by kk, so it has no bit kk lacks (42_alu R131;
that the draw is Config.randomByte at the state's drawIndex is the model's choice, log 6). -/
def Obligations.RandomIsMaskedDraw : Prop :=
  ∀ (x : Reg) (kk : Byte) (s : State), decodeWord (formatXK 0xC#4 x kk) = .rnd x kk ∧
    ∃ t, exec (.rnd x kk) s = .next t ∧ t.outcome = .success ∧ t.reg x = Config.randomByte s.drawIndex &&& kk ∧
      (∀ k, kk.getLsbD k = false → (t.reg x).getLsbD k = false) ∧ Frame { reg := only x } s t

/-! ## Index and memory -/

/-- ANNN: I := nnn, zero-extended (43_index_memory R140). -/
def Obligations.LoadIndexSetsI : Prop :=
  ∀ (nnn : Addr) (s : State), decodeWord (formatA 0xA#4 nnn) = .ldI nnn ∧
    ∃ t, exec (.ldI nnn) s = .next t ∧ t.outcome = .success ∧ t.regI.toNat = nnn.toNat ∧ Frame { regI := true } s t

/-- FX1E: I := I + V[x] modulo 2^16, no 12-bit mask and no flag (43_index_memory R141; the spec's D9; log 11). -/
def Obligations.AddIndexWrapsAt16Bits : Prop :=
  ∀ (x : Reg) (s : State), decodeWord (formatXK 0xF#4 x 0x1E#8) = .addI x ∧
    ∃ t, exec (.addI x) s = .next t ∧ t.outcome = .success ∧
      t.regI.toNat = (s.regI.toNat + (s.reg x).toNat) % 65536 ∧ Frame { regI := true } s t

/-- FX29: I := FONT_BASE + 5 * V[x], for every FONT_BASE and with V[x] not masked to a digit (43_index_memory R142). -/
def Obligations.GlyphAddressIsFiveTimesDigit : Prop :=
  ∀ (x : Reg) (s : State), decodeWord (formatXK 0xF#4 x 0x29#8) = .ldF x ∧
    ∃ t, exec (.ldF x) s = .next t ∧ t.outcome = .success ∧
      t.regI.toNat = s.fontBase.val + 5 * (s.reg x).toNat ∧ Frame { regI := true } s t

/-- FX33 with its three bytes inside memory stores the decimal digits of V[x], hundreds at I (43_index_memory R143; the bound
is the spec's D12; log 14). -/
def Obligations.BcdStoresDigits : Prop :=
  ∀ (x : Reg) (s : State), s.regI.toNat + 3 ≤ 4096 → decodeWord (formatXK 0xF#4 x 0x33#8) = .ldB x ∧
    ∃ t, exec (.ldB x) s = .next t ∧ t.outcome = .success ∧
      (t.readByte s.regI.toNat).toNat = (s.reg x).toNat / 100 ∧
      (t.readByte (s.regI.toNat + 1)).toNat = (s.reg x).toNat / 10 % 10 ∧
      (t.readByte (s.regI.toNat + 2)).toNat = (s.reg x).toNat % 10 ∧
      Frame { mem := bytesAt s.regI.toNat 3 } s t

/-- FX55 with its bytes inside memory stores V0..V[x] at I, I+1, .., and leaves I at I + x + 1 in index mode, else unchanged
(43_index_memory R145; the bound is the spec's D12; log 14). -/
def Obligations.StoreRegistersCopiesToMemory : Prop :=
  ∀ (x : Reg) (s : State), s.regI.toNat + x.toNat + 1 ≤ 4096 → decodeWord (formatXK 0xF#4 x 0x55#8) = .stRegs x ∧
    ∃ t, exec (.stRegs x) s = .next t ∧ t.outcome = .success ∧
      (∀ j : Reg, j.toNat ≤ x.toNat → t.readByte (s.regI.toNat + j.toNat) = s.reg j) ∧
      t.regI.toNat = (if s.modes.index then s.regI.toNat + x.toNat + 1 else s.regI.toNat) ∧
      Frame { mem := bytesAt s.regI.toNat (x.toNat + 1), regI := true } s t

/-- FX65 with its bytes inside memory loads V0..V[x] from I, I+1, .., and leaves I at I + x + 1 in index mode, else unchanged
(43_index_memory R146; the bound is the spec's D12; log 14). -/
def Obligations.LoadRegistersCopiesFromMemory : Prop :=
  ∀ (x : Reg) (s : State), s.regI.toNat + x.toNat + 1 ≤ 4096 → decodeWord (formatXK 0xF#4 x 0x65#8) = .ldRegs x ∧
    ∃ t, exec (.ldRegs x) s = .next t ∧ t.outcome = .success ∧
      (∀ j : Reg, j.toNat ≤ x.toNat → t.reg j = s.readByte (s.regI.toNat + j.toNat)) ∧
      t.regI.toNat = (if s.modes.index then s.regI.toNat + x.toNat + 1 else s.regI.toNat) ∧
      Frame { reg := fun j => decide (j.toNat ≤ x.toNat), regI := true } s t

/-- DRW, FX33, FX55 and FX65 whose bytes would pass the end of memory report MemoryOutOfBounds and write nothing
(20_memory R57; the comparison is the spec's D12; log 14). -/
def Obligations.OutOfBoundsWritesNothing : Prop :=
  (∀ (x y : Reg) (n : Nibble) (s : State), 4096 < s.regI.toNat + n.toNat →
    ∃ t, exec (.drw x y n) s = .next t ∧ t.outcome = .error .memoryOutOfBounds ∧ Frame {} s t) ∧
  (∀ (x : Reg) (s : State), 4096 < s.regI.toNat + 3 →
    ∃ t, exec (.ldB x) s = .next t ∧ t.outcome = .error .memoryOutOfBounds ∧ Frame {} s t) ∧
  ∀ (x : Reg) (s : State), 4096 < s.regI.toNat + x.toNat + 1 →
    (∃ t, exec (.stRegs x) s = .next t ∧ t.outcome = .error .memoryOutOfBounds ∧ Frame {} s t) ∧
    ∃ t, exec (.ldRegs x) s = .next t ∧ t.outcome = .error .memoryOutOfBounds ∧ Frame {} s t

/-- Bytes FX55 stores (43_index_memory R145) are what the next fetch from them reads, high byte first (20_memory R64); with
x = 0 it stores one byte and the low one is as before. That FX55 completes up to I + x + 1 = 4096 is the model's choice (log 14,
the spec's D12), and so is the bound on the fetch (log 9, the spec's D6). -/
def Obligations.FetchSeesStoredRegisters : Prop :=
  ∀ (x : Reg) (s : State), s.regI.toNat + x.toNat + 1 ≤ 4096 → s.regI.toNat ≤ 0xFFE →
    ∃ t, exec (.stRegs x) s = .next t ∧ t.outcome = .success ∧
      (t.setPc s.regI).fetch16.toNat = 256 * (s.reg 0#4).toNat +
        (if x = 0#4 then s.readByte (s.regI.toNat + 1) else s.reg 1#4).toNat

/-! ## Display -/

/-- CLS: every cell 0, whatever it was, and nothing else (44_display R160). -/
def Obligations.ClearScreenBlanksEveryCell : Prop :=
  decodeWord 0x00E0#16 = .cls ∧ ∀ s : State,
    ∃ t, exec .cls s = .next t ∧ t.outcome = .success ∧
      (∀ (x y : Nat) (hx : x < 64) (hy : y < 32), t.fb[y][x] = false) ∧ Frame { fb := true } s t

/-- DRW with its bytes inside memory, as a picture: every cell is XORed with the sprite's bit there, wrapping on both axes, and
VF is 1 exactly when a set bit met a lit cell; the origin is V[x], V[y] before VF changes (44_display R161; the origin's
reading is the spec's D11, the bound D12; log 13, 14, 27). -/
def Obligations.DrawXorsSprite : Prop :=
  ∀ (x y : Reg) (n : Nibble) (s : State), s.regI.toNat + n.toNat ≤ 4096 →
    decodeWord (nibbles 0xD#4 x y n) = .drw x y n ∧
    ∃ t, exec (.drw x y n) s = .next t ∧ t.outcome = .success ∧
      (∀ (px py : Nat) (hx : px < 64) (hy : py < 32), t.fb[py][px] =
        (s.fb[py][px] ^^ spriteBit s (s.reg x).toNat (s.reg y).toNat n.toNat px py)) ∧
      (t.reg vf = 1#8 ↔ ∃ (px py : Nat) (hx : px < 64) (hy : py < 32), s.fb[py][px] = true ∧
        spriteBit s (s.reg x).toNat (s.reg y).toNat n.toNat px py = true) ∧
      (t.reg vf = 1#8 ∨ t.reg vf = 0#8) ∧ Frame { reg := only vf, fb := true } s t

/-- Drawing the same sprite twice, its origin in registers other than VF, brings the screen back; on a blank screen the first
draw's VF is 0 and the second's is 1 exactly when the sprite has a set bit (44_display R161 with the example S8; the bound is
the spec's D12; log 14). -/
def Obligations.DrawTwiceRestoresScreen : Prop :=
  ∀ (x y : Reg) (n : Nibble) (s : State), x ≠ vf → y ≠ vf → s.regI.toNat + n.toNat ≤ 4096 →
    ∃ t u, exec (.drw x y n) s = .next t ∧ exec (.drw x y n) t = .next u ∧ u.fb = s.fb ∧
      (s.fb = Screen.blank → t.reg vf = 0#8 ∧
        (u.reg vf = 1#8 ↔ ∃ px py, px < 64 ∧ py < 32 ∧
          spriteBit s (s.reg x).toNat (s.reg y).toNat n.toNat px py = true))

/-! ## Keys and timers -/

/-- EX9E and EXA1 skip when key V[x] is pressed, or not pressed; an index of 16 or more reads the step's key draw, whatever it
is (45_timers_keys R170, R171; the bits of KEYS are the spec's D14 and the draw its D13; log 7, 15). -/
def Obligations.KeySkipsReadKey : Prop :=
  ∀ (x : Reg) (s : State) (p : Bool),
    p = (if (s.reg x).toNat < 16 then s.keys.getLsbD (s.reg x).toNat else Config.keyDraw s.drawIndex) →
    decodeWord (formatXK 0xE#4 x 0x9E#8) = .skp x ∧ decodeWord (formatXK 0xE#4 x 0xA1#8) = .sknp x ∧
    (∃ t, exec (.skp x) s = .next t ∧ t.outcome = .success ∧
      t.pc.toNat = (if p then (s.pc.toNat + 2) % 65536 else s.pc.toNat) ∧ Frame { pc := true } s t) ∧
    ∃ t, exec (.sknp x) s = .next t ∧ t.outcome = .success ∧
      t.pc.toNat = (if p then s.pc.toNat else (s.pc.toNat + 2) % 65536) ∧ Frame { pc := true } s t

/-- FX07: V[x] := DT, as it stands after this step's tick, and nothing else (45_timers_keys R172). -/
def Obligations.ReadDelayTimer : Prop :=
  ∀ (x : Reg) (s : State), decodeWord (formatXK 0xF#4 x 0x07#8) = .ldVxDt x ∧
    (∃ t, exec (.ldVxDt x) s = .next t ∧ t.outcome = .success ∧ t.reg x = s.dt ∧ Frame { reg := only x } s t) ∧
    (s.pc.toNat ≤ 0xFFE → decodeWord s.fetch16 = .ldVxDt x →
      ∃ t, step s = .next t ∧ (t.reg x).toNat = s.dt.toNat - 1 ∧ t.dt = t.reg x)

/-- FX0A: with no key pressed PC goes back by 2, so the step leaves PC and the word there as they were; otherwise V[x] is the
lowest pressed key (45_timers_keys R173). -/
def Obligations.KeyWaitPolls : Prop :=
  ∀ (x : Reg) (s : State), decodeWord (formatXK 0xF#4 x 0x0A#8) = .ldVxK x ∧
    (s.keys = 0#16 → ∃ t, exec (.ldVxK x) s = .next t ∧ t.outcome = .success ∧ t.pc = s.pc - 2#16 ∧
      Frame { pc := true } s t) ∧
    (∀ k, k < 16 → s.keys.getLsbD k = true → (∀ j, j < k → s.keys.getLsbD j = false) →
      ∃ t, exec (.ldVxK x) s = .next t ∧ t.outcome = .success ∧ (t.reg x).toNat = k ∧ Frame { reg := only x } s t) ∧
    (s.keys = 0#16 → s.pc.toNat ≤ 0xFFE → decodeWord s.fetch16 = .ldVxK x →
      ∃ t, step s = .next t ∧ t.outcome = .success ∧ t.pc = s.pc ∧ t.fetch16 = s.fetch16 ∧ (∀ j, t.reg j = s.reg j) ∧
        t.dt.toNat = s.dt.toNat - 1 ∧ t.st.toNat = s.st.toNat - 1)

/-- FX15 and FX18: DT or ST := V[x], and nothing else. The write comes after the step's tick, so the timer is V[x] at the end of
the step, and the next step ticks it down before anything else: it is V[x] - 1, or 0, unless that step writes it again, and
FX07 reads V[x] - 1 there (45_timers_keys R174, R175). The next step is one whose fetch succeeds. -/
def Obligations.WriteTimers : Prop :=
  ∀ (x : Reg) (s : State),
    decodeWord (formatXK 0xF#4 x 0x15#8) = .ldDtVx x ∧ decodeWord (formatXK 0xF#4 x 0x18#8) = .ldStVx x ∧
    (∃ t, exec (.ldDtVx x) s = .next t ∧ t.outcome = .success ∧ t.dt = s.reg x ∧ Frame { dt := true } s t) ∧
    (∃ t, exec (.ldStVx x) s = .next t ∧ t.outcome = .success ∧ t.st = s.reg x ∧ Frame { st := true } s t) ∧
    (s.pc.toNat ≤ 0xFFE → decodeWord s.fetch16 = .ldDtVx x →
      ∃ t, step s = .next t ∧ t.dt = s.reg x ∧ (t.pc.toNat ≤ 0xFFE → ∃ u, step t = .next u ∧
        (∀ y, decodeWord t.fetch16 = .ldVxDt y → (u.reg y).toNat = (s.reg x).toNat - 1) ∧
        ((∀ y, decodeWord t.fetch16 ≠ .ldDtVx y) → u.dt.toNat = (s.reg x).toNat - 1))) ∧
    (s.pc.toNat ≤ 0xFFE → decodeWord s.fetch16 = .ldStVx x →
      ∃ t, step s = .next t ∧ t.st = s.reg x ∧ (t.pc.toNat ≤ 0xFFE → ∃ u, step t = .next u ∧
        ((∀ y, decodeWord t.fetch16 ≠ .ldStVx y) → u.st.toNat = (s.reg x).toNat - 1)))

/-! ## The whole machine -/

/-- Every instruction writes only what the spec's lists of writers give it (10_state R22, R23, R25, R26, R30 to R32, R36;
20_memory R51). -/
def Obligations.InstructionsWriteOnlyTheirOwn : Prop :=
  ∀ (i : Instr) (s t : State), exec i s = .next t → Frame (mayWrite i s) s t

/-- Only CALL and RET touch STACK and SP; the host reads them and no operation of its writes them (10_state R30). -/
def Obligations.OnlyCallAndRetTouchStack : Prop :=
  (∀ (i : Instr) (s t : State), exec i s = .next t → (∀ nnn, i ≠ .call nnn) → i ≠ .ret →
    t.stack = s.stack ∧ t.sp = s.sp) ∧
  (∀ (e : HostEvent) (s t : State), e ≠ .step → e.apply s = .next t → t.stack = s.stack ∧ t.sp = s.sp) ∧
  ∀ s : State, s.snapshot.sp = s.sp.val ∧ s.snapshot.stack = s.stack.toList

/-- No step changes KEYS, MODES or FONT_BASE: only the host does (10_state R34, R37; 00_scope R7). -/
def Obligations.StepsLeaveHostInputs : Prop :=
  ∀ s t : State, step s = .next t → t.keys = s.keys ∧ t.modes = s.modes ∧ t.fontBase = s.fontBase

/-- An instruction reports exactly the error the table of causes gives it, and otherwise Success (60_exceptions R181; the
bounds are the spec's D12; log 14). -/
def Obligations.OutcomesFollowTableOfCauses : Prop :=
  ∀ (i : Instr) (s t : State), exec i s = .next t → t.outcome = outcomeOf i s

/-- A step that reports an error leaves the state before it with PC past the word, the timers ticked and the next draws, or,
when the fetch failed, the state unchanged (60_exceptions R182; D6, D24; log 1, 9, 22). -/
def Obligations.ErrorStepsWriteNothing : Prop :=
  ∀ (s t : State) (e : Fault), step s = .next t → t.outcome = .error e →
    (s.pc.toNat ≤ 0xFFE ∧ t = { s.advance with outcome := .error e }) ∨
    (0xFFE < s.pc.toNat ∧ e = .memoryOutOfBounds ∧ t = { s with outcome := .error e })

/-- The mode flags select the result of 8XY6, 8XYE, BNNN, FX55 and FX65 and of nothing else (10_state R44). -/
def Obligations.OtherInstructionsIgnoreModes : Prop :=
  ∀ (i : Instr) (m : Modes) (s : State), readsModes i = false →
    exec i (withModes m s) = onNext (withModes m) (exec i s)

/-- The draws reach the state through CXKK, and EX9E and EXA1 with V[x] >= 16, and nothing else (40_step R90; log 6, 7). -/
def Obligations.OtherInstructionsIgnoreDraws : Prop :=
  ∀ (i : Instr) (n : Nat) (s : State), readsDraw i s = false →
    exec i (withDraws n s) = onNext (withDraws n) (exec i s)

/-- A step keeps memory in its canonical form (the model's own invariant; 20_memory R50; log 25). -/
def Obligations.StepKeepsCanonicalMemory : Prop :=
  ∀ s t : State, Canonical s → step s = .next t → Canonical t

/-- Every successful run keeps memory in its canonical form, whatever the host does between the steps (log 25). -/
def Obligations.RunsKeepCanonicalMemory : Prop :=
  ∀ (es : List HostEvent) (s t : State), Canonical s → EndsIn es s t → Canonical t

/-! ## Reset, the host and runs -/

/-- What construction leaves, for every FONT_BASE and MODES_INIT: both as given, V zero, PC 0x200, memory zero but for the
fontset, glyph d at FONT_BASE + 5 d; and, by the spec's decision D3 (log 5), I, SP, the stack, the timers, the keys and the
screen zero. The fontset's bytes, written out from the table of 20_memory R53, are the spec's D2 (PRESUMED, log 4). -/
def Obligations.ConstructionResetsEverything : Prop :=
  ∀ (base : FontBase) (m : Modes) (s : State) (glyphs : List (List Byte)), s = State.construct base m →
    glyphs = [[0xF0#8, 0x90#8, 0x90#8, 0x90#8, 0xF0#8], [0x20#8, 0x60#8, 0x20#8, 0x20#8, 0x70#8],
      [0xF0#8, 0x10#8, 0xF0#8, 0x80#8, 0xF0#8], [0xF0#8, 0x10#8, 0xF0#8, 0x10#8, 0xF0#8],
      [0x90#8, 0x90#8, 0xF0#8, 0x10#8, 0x10#8], [0xF0#8, 0x80#8, 0xF0#8, 0x10#8, 0xF0#8],
      [0xF0#8, 0x80#8, 0xF0#8, 0x90#8, 0xF0#8], [0xF0#8, 0x10#8, 0x20#8, 0x40#8, 0x40#8],
      [0xF0#8, 0x90#8, 0xF0#8, 0x90#8, 0xF0#8], [0xF0#8, 0x90#8, 0xF0#8, 0x10#8, 0xF0#8],
      [0xF0#8, 0x90#8, 0xF0#8, 0x90#8, 0x90#8], [0xE0#8, 0x90#8, 0xE0#8, 0x90#8, 0xE0#8],
      [0xF0#8, 0x80#8, 0x80#8, 0x80#8, 0xF0#8], [0xE0#8, 0x90#8, 0x90#8, 0x90#8, 0xE0#8],
      [0xF0#8, 0x80#8, 0xF0#8, 0x80#8, 0xF0#8], [0xF0#8, 0x80#8, 0xF0#8, 0x80#8, 0x80#8]] →
    s.fontBase = base ∧ (∀ j, s.reg j = 0#8) ∧ s.pc = 0x200#16 ∧ s.modes = m ∧
    (∀ d k, d < 16 → k < 5 → (glyphs[d]?.bind (·[k]?)) = some (s.readByte (base.val + 5 * d + k))) ∧
    (∀ a, a < base.val ∨ base.val + 80 ≤ a → s.readByte a = 0#8) ∧
    s.regI = 0#16 ∧ s.sp.val = 0 ∧ (∀ (j : Nat) (hj : j < 16), s.stack[j] = 0#16) ∧ s.dt = 0#8 ∧ s.st = 0#8 ∧
    s.keys = 0#16 ∧ (∀ (x y : Nat) (hx : x < 64) (hy : y < 32), s.fb[y][x] = false)

/-- Memory is canonical at reset (log 25). -/
def Obligations.ResetMemoryIsCanonical : Prop := Canonical State.reset ∧ ∀ base m, Canonical (State.construct base m)

/-- LoadRom copies at most 3584 bytes from 0x200 up and changes nothing else; a longer one is refused whole (70_reset R204,
R205; that it may happen at any time is the spec's D21; log 19). -/
def Obligations.RomLoadCopiesOrRefuses : Prop :=
  ∀ (bytes : List Byte) (s : State),
    (bytes.length ≤ 3584 → ∃ t, loadRom bytes s = (.success, t) ∧
      (∀ k (hk : k < bytes.length), t.readByte (0x200 + k) = bytes[k]) ∧
      t.outcome = s.outcome ∧ Frame { mem := bytesAt 0x200 bytes.length } s t) ∧
    (3584 < bytes.length → loadRom bytes s = (.romTooLarge, s))

/-- SetKey sets the one key's bit and changes nothing else; another index is refused by name (70_reset R212). -/
def Obligations.SetKeySetsOneBit : Prop :=
  ∀ (k : Nat) (pressed : Bool) (s : State),
    (k < 16 → ∃ t, setKey k pressed s = .next t ∧ t.keys.getLsbD k = pressed ∧
      (∀ j, j ≠ k → t.keys.getLsbD j = s.keys.getLsbD j) ∧ t = { s with keys := t.keys }) ∧
    (16 ≤ k → setKey k pressed s = .refused (.keyOutOfRange k))

/-- No host operation but Step writes V, I, PC, SP, STACK, DT, ST or FB (70_reset R210). -/
def Obligations.HostWritesOnlyInputsAndMemory : Prop :=
  ∀ (e : HostEvent) (s t : State), e ≠ .step → e.apply s = .next t →
    t.v = s.v ∧ t.regI = s.regI ∧ t.pc = s.pc ∧ t.sp = s.sp ∧ t.stack = s.stack ∧ t.dt = s.dt ∧ t.st = s.st ∧ t.fb = s.fb

/-- The host sees the framebuffer as 2048 bytes of 0 or 1, the cell (x, y) at index y * 64 + x (70_reset R211, 10_state R36;
the spec's D23; log 21). -/
def Obligations.FrameIsRowMajor : Prop :=
  ∀ s : State, s.frame.length = 2048 ∧
    ∀ (x y : Nat) (hx : x < 64) (hy : y < 32), s.frame[y * 64 + x]? = some (if s.fb[y][x] then 1#8 else 0#8)

/-- A run ends in a fault at its first unsuccessful step, whatever the host would have done after it (70_reset R216; the spec's
D18; log 17). -/
def Obligations.RunEndsAtFirstError : Prop :=
  ∀ (es rest : List HostEvent) (s t u : State) (e : Fault),
    EndsIn es s t → step t = .next u → u.outcome = .error e → run (es ++ .step :: rest) s = .fault e

/-- SetModes writes MODES and changes nothing else, a toggle flips exactly one flag, and the steps after it go by the new flags:
the target of BNNN, what 8XY6 shifts and where FX65 leaves I (70_reset R213, 10_state R37 to R41). That the change counts from
the next step is the model's choice (log 23, the spec's D25), and so is FX65's bound (log 14, D12). -/
def Obligations.ModeMutatorWritesModes : Prop :=
  ∀ (m : Modes) (s : State),
    (HostEvent.setModes m).apply s = .next (setModes m s) ∧ setModes m s = { s with modes := m } ∧
    toggleShift s = { s with modes := { s.modes with shift := !s.modes.shift } } ∧
    toggleJump s = { s with modes := { s.modes with jump := !s.modes.jump } } ∧
    toggleIndex s = { s with modes := { s.modes with index := !s.modes.index } } ∧
    (s.pc.toNat ≤ 0xFFE →
      (∀ nnn, decodeWord s.fetch16 = .jpV nnn → ∃ t, step (setModes m s) = .next t ∧ t.modes = m ∧ t.pc.toNat = nnn.toNat +
        (if m.jump then s.reg (BitVec.ofNat 4 (nnn.toNat / 256)) else s.reg 0#4).toNat) ∧
      (∀ x y, x ≠ vf → decodeWord s.fetch16 = .shr x y → ∃ t, step (setModes m s) = .next t ∧ t.modes = m ∧
        (t.reg x).toNat = (if m.shift then s.reg y else s.reg x).toNat / 2) ∧
      ∀ x, s.regI.toNat + x.toNat + 1 ≤ 4096 → decodeWord s.fetch16 = .ldRegs x →
        ∃ t, step (setModes m s) = .next t ∧ t.modes = m ∧
          t.regI.toNat = (if m.index then s.regI.toNat + x.toNat + 1 else s.regI.toNat))

/-- The host's accessors show PC, I, SP, DT, ST, each V[i], the stack slots and each key as the state holds them
(70_reset R211); the framebuffer's entries are FrameIsRowMajor. That all 16 slots are shown (log 20, the spec's D22), that bit k
of KEYS is key k (log 15, D14), and that no key from 16 up is answered (log 29) are the model's choices. -/
def Obligations.AccessorsShowState : Prop :=
  ∀ s : State,
    s.snapshot.pc = s.pc ∧ s.snapshot.regI = s.regI ∧ s.snapshot.sp = s.sp.val ∧ s.snapshot.dt = s.dt ∧
    s.snapshot.st = s.st ∧ s.snapshot.frame = s.frame ∧
    s.snapshot.v.length = 16 ∧ (∀ j : Reg, s.snapshot.v[j.toNat]? = some (s.reg j)) ∧
    s.snapshot.stack.length = 16 ∧ (∀ (j : Nat) (hj : j < 16), s.snapshot.stack[j]? = some s.stack[j]) ∧
    s.snapshot.pressed.length = 16 ∧
    (∀ k, k < 16 → s.snapshot.pressed[k]? = some (s.keys.getLsbD k) ∧ s.hostPressed k = some (s.keys.getLsbD k)) ∧
    ∀ k, 16 ≤ k → s.hostPressed k = none
end

