-- ==== Sys2Proof/Laws/Decode.lean ====
section
/-!
SUPPORT. The fields of a word put together from fields, and a word put together from its fields.
-/

namespace Sys2Proof

/-! ## Bits of a word built from fields -/

theorem getLsbD_formatA (a : Nibble) (nnn : Addr) (i : Nat) :
    (formatA a nnn).getLsbD i = if i < 12 then nnn.getLsbD i else a.getLsbD (i - 12) :=
  BitVec.getLsbD_append

theorem getLsbD_formatXK (a : Nibble) (x : Reg) (kk : Byte) (i : Nat) :
    (formatXK a x kk).getLsbD i =
      if i < 8 then kk.getLsbD i else if i - 8 < 4 then x.getLsbD (i - 8) else a.getLsbD (i - 8 - 4) :=
  BitVec.getLsbD_append.trans (by rw [BitVec.getLsbD_append])

theorem getLsbD_nibbles (a b c d : Nibble) (i : Nat) :
    (nibbles a b c d).getLsbD i =
      if i < 4 then d.getLsbD i else if i - 4 < 4 then c.getLsbD (i - 4)
      else if i - 4 - 4 < 4 then b.getLsbD (i - 4 - 4) else a.getLsbD (i - 4 - 4 - 4) :=
  BitVec.getLsbD_append.trans (by rw [BitVec.getLsbD_append, BitVec.getLsbD_append])

theorem getLsbD_wordOfBytes (hi lo : Byte) (i : Nat) :
    (wordOfBytes hi lo).getLsbD i = if i < 8 then lo.getLsbD i else hi.getLsbD (i - 8) :=
  BitVec.getLsbD_append

/-! ## Fields of a word built from fields -/

section fields
variable (a b c d : Nibble) (x : Reg) (kk : Byte) (nnn : Addr)

@[simp] theorem msq_formatA : msq (formatA a nnn) = a := by
  apply BitVec.eq_of_getLsbD_eq; intro i hi
  simp [msq, getLsbD_formatA, hi]

@[simp] theorem fieldNNN_formatA : fieldNNN (formatA a nnn) = nnn := by
  apply BitVec.eq_of_getLsbD_eq; intro i hi
  simp [fieldNNN, getLsbD_formatA, hi]

@[simp] theorem msq_formatXK : msq (formatXK a x kk) = a := by
  apply BitVec.eq_of_getLsbD_eq; intro i hi
  have e1 : ¬ 12 + i < 8 := by omega
  have e2 : ¬ 12 + i - 8 < 4 := by omega
  have e3 : 12 + i - 8 - 4 = i := by omega
  simp [msq, getLsbD_formatXK, hi, e1, e2, e3]

@[simp] theorem fieldX_formatXK : fieldX (formatXK a x kk) = x := by
  apply BitVec.eq_of_getLsbD_eq; intro i hi
  have h1 : 8 + i < 16 := by omega
  have h2 : ¬ 8 + i < 8 := by omega
  have h3 : 8 + i - 8 = i := by omega
  simp [fieldX, getLsbD_formatXK, hi, h2, h3]

@[simp] theorem fieldKK_formatXK : fieldKK (formatXK a x kk) = kk := by
  apply BitVec.eq_of_getLsbD_eq; intro i hi
  simp [fieldKK, getLsbD_formatXK, hi]

@[simp] theorem msq_nibbles : msq (nibbles a b c d) = a := by
  apply BitVec.eq_of_getLsbD_eq; intro i hi
  have e1 : 12 + i - 4 - 4 - 4 = i := by omega
  have e2 : ¬ 12 + i < 4 := by omega
  have e3 : ¬ 12 + i - 4 < 4 := by omega
  have e4 : ¬ 12 + i - 4 - 4 < 4 := by omega
  simp [msq, getLsbD_nibbles, hi, e1, e2, e3, e4]

@[simp] theorem fieldX_nibbles : fieldX (nibbles a b c d) = b := by
  apply BitVec.eq_of_getLsbD_eq; intro i hi
  have e1 : 8 + i - 4 - 4 = i := by omega
  have e2 : ¬ 8 + i < 4 := by omega
  have e3 : ¬ 8 + i - 4 < 4 := by omega
  simp [fieldX, getLsbD_nibbles, hi, e1, e2, e3]

@[simp] theorem fieldY_nibbles : fieldY (nibbles a b c d) = c := by
  apply BitVec.eq_of_getLsbD_eq; intro i hi
  have e1 : 4 + i - 4 = i := by omega
  have e2 : ¬ 4 + i < 4 := by omega
  simp [fieldY, getLsbD_nibbles, hi, e1, e2]

@[simp] theorem fieldN_nibbles : fieldN (nibbles a b c d) = d := by
  apply BitVec.eq_of_getLsbD_eq; intro i hi
  simp [fieldN, getLsbD_nibbles, hi]

end fields

/-! ## A word is its fields -/

theorem eq_formatA (w : Word) : w = formatA (msq w) (fieldNNN w) := by
  apply BitVec.eq_of_getLsbD_eq; intro i hi
  by_cases h : i < 12
  · simp [msq, fieldNNN, getLsbD_formatA, h]
  · have h1 : i - 12 < 4 := by omega
    have h2 : 12 + (i - 12) = i := by omega
    simp [msq, fieldNNN, getLsbD_formatA, h, h1, h2]

theorem eq_formatXK (w : Word) : w = formatXK (msq w) (fieldX w) (fieldKK w) := by
  apply BitVec.eq_of_getLsbD_eq; intro i hi
  by_cases h : i < 8
  · simp [msq, fieldX, fieldKK, getLsbD_formatXK, h]
  · by_cases h' : i < 12
    · have h1 : i - 8 < 4 := by omega
      have h2 : 8 + (i - 8) = i := by omega
      simp [msq, fieldX, fieldKK, getLsbD_formatXK, h, h1, h2]
    · have h1 : ¬ i - 8 < 4 := by omega
      have h2 : i - 8 - 4 < 4 := by omega
      have h3 : 12 + (i - 8 - 4) = i := by omega
      simp [msq, fieldX, fieldKK, getLsbD_formatXK, h, h1, h2, h3]

theorem eq_nibbles (w : Word) : w = nibbles (msq w) (fieldX w) (fieldY w) (fieldN w) := by
  apply BitVec.eq_of_getLsbD_eq; intro i hi
  by_cases h : i < 4
  · simp [msq, fieldX, fieldY, fieldN, getLsbD_nibbles, h]
  · by_cases h' : i < 8
    · have h1 : i - 4 < 4 := by omega
      have h2 : 4 + (i - 4) = i := by omega
      simp [msq, fieldX, fieldY, fieldN, getLsbD_nibbles, h, h1, h2]
    · have h1 : ¬ i - 4 < 4 := by omega
      by_cases h'' : i < 12
      · have h2 : i - 4 - 4 < 4 := by omega
        have h3 : 8 + (i - 4 - 4) = i := by omega
        simp [msq, fieldX, fieldY, fieldN, getLsbD_nibbles, h, h1, h2, h3]
      · have h2 : ¬ i - 4 - 4 < 4 := by omega
        have h3 : i - 4 - 4 - 4 < 4 := by omega
        have h4 : 12 + (i - 4 - 4 - 4) = i := by omega
        simp [msq, fieldX, fieldY, fieldN, getLsbD_nibbles, h, h1, h2, h3, h4]

/-- A word is its two bytes in memory order. -/
@[simp] theorem wordOfBytes_bytes (w : Word) : wordOfBytes (highByte w) (lowByte w) = w := by
  apply BitVec.eq_of_getLsbD_eq; intro i hi
  by_cases h : i < 8
  · simp [getLsbD_wordOfBytes, highByte, lowByte, h]
  · have h1 : i - 8 < 8 := by omega
    have h2 : 8 + (i - 8) = i := by omega
    simp [getLsbD_wordOfBytes, highByte, lowByte, h, h1, h2]

@[simp] theorem highByte_wordOfBytes (hi lo : Byte) : highByte (wordOfBytes hi lo) = hi := by
  apply BitVec.eq_of_getLsbD_eq; intro i h
  simp [getLsbD_wordOfBytes, highByte, h]

@[simp] theorem lowByte_wordOfBytes (hi lo : Byte) : lowByte (wordOfBytes hi lo) = lo := by
  apply BitVec.eq_of_getLsbD_eq; intro i h
  simp [getLsbD_wordOfBytes, lowByte, h]

theorem wordOfBytes_toNat (hi lo : Byte) : (wordOfBytes hi lo).toNat = 256 * hi.toNat + lo.toNat := by
  show (hi ++ lo : BitVec (8 + 8)).toNat = _
  rw [BitVec.toNat_append, ← Nat.shiftLeft_add_eq_or_of_lt lo.isLt, Nat.shiftLeft_eq]
  omega

/-! ## The shifts and masks WellFormed reads a word by -/

theorem shiftRight_toNat (w : Word) : (w >>> 12).toNat = (msq w).toNat := by
  have := w.isLt
  simp [msq, BitVec.extractLsb'_toNat, Nat.shiftRight_eq_div_pow]; omega

theorem and_low_nibble (w : Word) : w &&& 0x000F#16 = (fieldN w).setWidth 16 := by
  apply BitVec.eq_of_toNat_eq
  have h : w.toNat &&& 15 = w.toNat % 16 := Nat.and_two_pow_sub_one_eq_mod w.toNat 4
  simp [fieldN, h]; omega

theorem and_low_byte (w : Word) : w &&& 0x00FF#16 = (fieldKK w).setWidth 16 := by
  apply BitVec.eq_of_toNat_eq
  have h : w.toNat &&& 255 = w.toNat % 256 := Nat.and_two_pow_sub_one_eq_mod w.toNat 8
  simp [fieldKK, h]; omega

/-! ## The fixed bits of a row -/

theorem formatA_mask (a : Nibble) (nnn : Addr) : formatA a nnn &&& 0xF000#16 = formatA a 0#12 := by
  apply BitVec.eq_of_getLsbD_eq; intro i hi
  rw [BitVec.getLsbD_and, getLsbD_formatA, getLsbD_formatA]
  interval_cases i <;> simp

theorem formatXK_mask (a : Nibble) (x : Reg) (kk : Byte) : formatXK a x kk &&& 0xF000#16 = formatXK a 0#4 0#8 := by
  apply BitVec.eq_of_getLsbD_eq; intro i hi
  rw [BitVec.getLsbD_and, getLsbD_formatXK, getLsbD_formatXK]
  interval_cases i <;> simp

theorem formatX_mask (a : Nibble) (x : Reg) (kk : Byte) : formatXK a x kk &&& 0xF0FF#16 = formatXK a 0#4 kk := by
  apply BitVec.eq_of_getLsbD_eq; intro i hi
  rw [BitVec.getLsbD_and, getLsbD_formatXK, getLsbD_formatXK]
  interval_cases i <;> simp

theorem nibbles_mask (a b c d : Nibble) : nibbles a b c d &&& 0xF00F#16 = nibbles a 0#4 0#4 d := by
  apply BitVec.eq_of_getLsbD_eq; intro i hi
  rw [BitVec.getLsbD_and, getLsbD_nibbles, getLsbD_nibbles]
  interval_cases i <;> simp

theorem nibbles_mask_first (a b c d : Nibble) : nibbles a b c d &&& 0xF000#16 = nibbles a 0#4 0#4 0#4 := by
  apply BitVec.eq_of_getLsbD_eq; intro i hi
  rw [BitVec.getLsbD_and, getLsbD_nibbles, getLsbD_nibbles]
  interval_cases i <;> simp

end Sys2Proof
end

