-- ==== Sys2Proof/Laws/State.lean ====
section
/-!
SUPPORT. What each named update of the state leaves in each field: one lemma per field per update, and the inversion of the
two ways an instruction ends.
-/

namespace Sys2Proof.Machine

variable (s : State)

/-! ## setReg -/

@[simp] theorem State.setReg_mem (x : Reg) (b : Byte) : (s.setReg x b).mem = s.mem := rfl
@[simp] theorem State.setReg_v (x : Reg) (b : Byte) : (s.setReg x b).v = s.v.set x.toNat b := rfl
@[simp] theorem State.setReg_regI (x : Reg) (b : Byte) : (s.setReg x b).regI = s.regI := rfl
@[simp] theorem State.setReg_pc (x : Reg) (b : Byte) : (s.setReg x b).pc = s.pc := rfl
@[simp] theorem State.setReg_stack (x : Reg) (b : Byte) : (s.setReg x b).stack = s.stack := rfl
@[simp] theorem State.setReg_sp (x : Reg) (b : Byte) : (s.setReg x b).sp = s.sp := rfl
@[simp] theorem State.setReg_dt (x : Reg) (b : Byte) : (s.setReg x b).dt = s.dt := rfl
@[simp] theorem State.setReg_st (x : Reg) (b : Byte) : (s.setReg x b).st = s.st := rfl
@[simp] theorem State.setReg_keys (x : Reg) (b : Byte) : (s.setReg x b).keys = s.keys := rfl
@[simp] theorem State.setReg_fb (x : Reg) (b : Byte) : (s.setReg x b).fb = s.fb := rfl
@[simp] theorem State.setReg_modes (x : Reg) (b : Byte) : (s.setReg x b).modes = s.modes := rfl
@[simp] theorem State.setReg_fontBase (x : Reg) (b : Byte) : (s.setReg x b).fontBase = s.fontBase := rfl
@[simp] theorem State.setReg_drawIndex (x : Reg) (b : Byte) : (s.setReg x b).drawIndex = s.drawIndex := rfl
@[simp] theorem State.setReg_outcome (x : Reg) (b : Byte) : (s.setReg x b).outcome = s.outcome := rfl

/-! ## setRegs -/

@[simp] theorem State.setRegs_mem (f : Reg → Byte) : (s.setRegs f).mem = s.mem := rfl
@[simp] theorem State.setRegs_regI (f : Reg → Byte) : (s.setRegs f).regI = s.regI := rfl
@[simp] theorem State.setRegs_pc (f : Reg → Byte) : (s.setRegs f).pc = s.pc := rfl
@[simp] theorem State.setRegs_stack (f : Reg → Byte) : (s.setRegs f).stack = s.stack := rfl
@[simp] theorem State.setRegs_sp (f : Reg → Byte) : (s.setRegs f).sp = s.sp := rfl
@[simp] theorem State.setRegs_dt (f : Reg → Byte) : (s.setRegs f).dt = s.dt := rfl
@[simp] theorem State.setRegs_st (f : Reg → Byte) : (s.setRegs f).st = s.st := rfl
@[simp] theorem State.setRegs_keys (f : Reg → Byte) : (s.setRegs f).keys = s.keys := rfl
@[simp] theorem State.setRegs_fb (f : Reg → Byte) : (s.setRegs f).fb = s.fb := rfl
@[simp] theorem State.setRegs_modes (f : Reg → Byte) : (s.setRegs f).modes = s.modes := rfl
@[simp] theorem State.setRegs_fontBase (f : Reg → Byte) : (s.setRegs f).fontBase = s.fontBase := rfl
@[simp] theorem State.setRegs_drawIndex (f : Reg → Byte) : (s.setRegs f).drawIndex = s.drawIndex := rfl
@[simp] theorem State.setRegs_outcome (f : Reg → Byte) : (s.setRegs f).outcome = s.outcome := rfl

/-! ## setI -/

@[simp] theorem State.setI_mem (a : Word) : (s.setI a).mem = s.mem := rfl
@[simp] theorem State.setI_v (a : Word) : (s.setI a).v = s.v := rfl
@[simp] theorem State.setI_regI (a : Word) : (s.setI a).regI = a := rfl
@[simp] theorem State.setI_pc (a : Word) : (s.setI a).pc = s.pc := rfl
@[simp] theorem State.setI_stack (a : Word) : (s.setI a).stack = s.stack := rfl
@[simp] theorem State.setI_sp (a : Word) : (s.setI a).sp = s.sp := rfl
@[simp] theorem State.setI_dt (a : Word) : (s.setI a).dt = s.dt := rfl
@[simp] theorem State.setI_st (a : Word) : (s.setI a).st = s.st := rfl
@[simp] theorem State.setI_keys (a : Word) : (s.setI a).keys = s.keys := rfl
@[simp] theorem State.setI_fb (a : Word) : (s.setI a).fb = s.fb := rfl
@[simp] theorem State.setI_modes (a : Word) : (s.setI a).modes = s.modes := rfl
@[simp] theorem State.setI_fontBase (a : Word) : (s.setI a).fontBase = s.fontBase := rfl
@[simp] theorem State.setI_drawIndex (a : Word) : (s.setI a).drawIndex = s.drawIndex := rfl
@[simp] theorem State.setI_outcome (a : Word) : (s.setI a).outcome = s.outcome := rfl

/-! ## setPc -/

@[simp] theorem State.setPc_mem (a : Word) : (s.setPc a).mem = s.mem := rfl
@[simp] theorem State.setPc_v (a : Word) : (s.setPc a).v = s.v := rfl
@[simp] theorem State.setPc_regI (a : Word) : (s.setPc a).regI = s.regI := rfl
@[simp] theorem State.setPc_pc (a : Word) : (s.setPc a).pc = a := rfl
@[simp] theorem State.setPc_stack (a : Word) : (s.setPc a).stack = s.stack := rfl
@[simp] theorem State.setPc_sp (a : Word) : (s.setPc a).sp = s.sp := rfl
@[simp] theorem State.setPc_dt (a : Word) : (s.setPc a).dt = s.dt := rfl
@[simp] theorem State.setPc_st (a : Word) : (s.setPc a).st = s.st := rfl
@[simp] theorem State.setPc_keys (a : Word) : (s.setPc a).keys = s.keys := rfl
@[simp] theorem State.setPc_fb (a : Word) : (s.setPc a).fb = s.fb := rfl
@[simp] theorem State.setPc_modes (a : Word) : (s.setPc a).modes = s.modes := rfl
@[simp] theorem State.setPc_fontBase (a : Word) : (s.setPc a).fontBase = s.fontBase := rfl
@[simp] theorem State.setPc_drawIndex (a : Word) : (s.setPc a).drawIndex = s.drawIndex := rfl
@[simp] theorem State.setPc_outcome (a : Word) : (s.setPc a).outcome = s.outcome := rfl

/-! ## setDt -/

@[simp] theorem State.setDt_mem (b : Byte) : (s.setDt b).mem = s.mem := rfl
@[simp] theorem State.setDt_v (b : Byte) : (s.setDt b).v = s.v := rfl
@[simp] theorem State.setDt_regI (b : Byte) : (s.setDt b).regI = s.regI := rfl
@[simp] theorem State.setDt_pc (b : Byte) : (s.setDt b).pc = s.pc := rfl
@[simp] theorem State.setDt_stack (b : Byte) : (s.setDt b).stack = s.stack := rfl
@[simp] theorem State.setDt_sp (b : Byte) : (s.setDt b).sp = s.sp := rfl
@[simp] theorem State.setDt_dt (b : Byte) : (s.setDt b).dt = b := rfl
@[simp] theorem State.setDt_st (b : Byte) : (s.setDt b).st = s.st := rfl
@[simp] theorem State.setDt_keys (b : Byte) : (s.setDt b).keys = s.keys := rfl
@[simp] theorem State.setDt_fb (b : Byte) : (s.setDt b).fb = s.fb := rfl
@[simp] theorem State.setDt_modes (b : Byte) : (s.setDt b).modes = s.modes := rfl
@[simp] theorem State.setDt_fontBase (b : Byte) : (s.setDt b).fontBase = s.fontBase := rfl
@[simp] theorem State.setDt_drawIndex (b : Byte) : (s.setDt b).drawIndex = s.drawIndex := rfl
@[simp] theorem State.setDt_outcome (b : Byte) : (s.setDt b).outcome = s.outcome := rfl

/-! ## setSt -/

@[simp] theorem State.setSt_mem (b : Byte) : (s.setSt b).mem = s.mem := rfl
@[simp] theorem State.setSt_v (b : Byte) : (s.setSt b).v = s.v := rfl
@[simp] theorem State.setSt_regI (b : Byte) : (s.setSt b).regI = s.regI := rfl
@[simp] theorem State.setSt_pc (b : Byte) : (s.setSt b).pc = s.pc := rfl
@[simp] theorem State.setSt_stack (b : Byte) : (s.setSt b).stack = s.stack := rfl
@[simp] theorem State.setSt_sp (b : Byte) : (s.setSt b).sp = s.sp := rfl
@[simp] theorem State.setSt_dt (b : Byte) : (s.setSt b).dt = s.dt := rfl
@[simp] theorem State.setSt_st (b : Byte) : (s.setSt b).st = b := rfl
@[simp] theorem State.setSt_keys (b : Byte) : (s.setSt b).keys = s.keys := rfl
@[simp] theorem State.setSt_fb (b : Byte) : (s.setSt b).fb = s.fb := rfl
@[simp] theorem State.setSt_modes (b : Byte) : (s.setSt b).modes = s.modes := rfl
@[simp] theorem State.setSt_fontBase (b : Byte) : (s.setSt b).fontBase = s.fontBase := rfl
@[simp] theorem State.setSt_drawIndex (b : Byte) : (s.setSt b).drawIndex = s.drawIndex := rfl
@[simp] theorem State.setSt_outcome (b : Byte) : (s.setSt b).outcome = s.outcome := rfl

/-! ## setFb -/

@[simp] theorem State.setFb_mem (fb : Screen) : (s.setFb fb).mem = s.mem := rfl
@[simp] theorem State.setFb_v (fb : Screen) : (s.setFb fb).v = s.v := rfl
@[simp] theorem State.setFb_regI (fb : Screen) : (s.setFb fb).regI = s.regI := rfl
@[simp] theorem State.setFb_pc (fb : Screen) : (s.setFb fb).pc = s.pc := rfl
@[simp] theorem State.setFb_stack (fb : Screen) : (s.setFb fb).stack = s.stack := rfl
@[simp] theorem State.setFb_sp (fb : Screen) : (s.setFb fb).sp = s.sp := rfl
@[simp] theorem State.setFb_dt (fb : Screen) : (s.setFb fb).dt = s.dt := rfl
@[simp] theorem State.setFb_st (fb : Screen) : (s.setFb fb).st = s.st := rfl
@[simp] theorem State.setFb_keys (fb : Screen) : (s.setFb fb).keys = s.keys := rfl
@[simp] theorem State.setFb_fb (fb : Screen) : (s.setFb fb).fb = fb := rfl
@[simp] theorem State.setFb_modes (fb : Screen) : (s.setFb fb).modes = s.modes := rfl
@[simp] theorem State.setFb_fontBase (fb : Screen) : (s.setFb fb).fontBase = s.fontBase := rfl
@[simp] theorem State.setFb_drawIndex (fb : Screen) : (s.setFb fb).drawIndex = s.drawIndex := rfl
@[simp] theorem State.setFb_outcome (fb : Screen) : (s.setFb fb).outcome = s.outcome := rfl

/-! ## writeByte -/

@[simp] theorem State.writeByte_mem (a : Nat) (b : Byte) : (s.writeByte a b).mem = Memory.write s.fontBase s.mem a b := rfl
@[simp] theorem State.writeByte_v (a : Nat) (b : Byte) : (s.writeByte a b).v = s.v := rfl
@[simp] theorem State.writeByte_regI (a : Nat) (b : Byte) : (s.writeByte a b).regI = s.regI := rfl
@[simp] theorem State.writeByte_pc (a : Nat) (b : Byte) : (s.writeByte a b).pc = s.pc := rfl
@[simp] theorem State.writeByte_stack (a : Nat) (b : Byte) : (s.writeByte a b).stack = s.stack := rfl
@[simp] theorem State.writeByte_sp (a : Nat) (b : Byte) : (s.writeByte a b).sp = s.sp := rfl
@[simp] theorem State.writeByte_dt (a : Nat) (b : Byte) : (s.writeByte a b).dt = s.dt := rfl
@[simp] theorem State.writeByte_st (a : Nat) (b : Byte) : (s.writeByte a b).st = s.st := rfl
@[simp] theorem State.writeByte_keys (a : Nat) (b : Byte) : (s.writeByte a b).keys = s.keys := rfl
@[simp] theorem State.writeByte_fb (a : Nat) (b : Byte) : (s.writeByte a b).fb = s.fb := rfl
@[simp] theorem State.writeByte_modes (a : Nat) (b : Byte) : (s.writeByte a b).modes = s.modes := rfl
@[simp] theorem State.writeByte_fontBase (a : Nat) (b : Byte) : (s.writeByte a b).fontBase = s.fontBase := rfl
@[simp] theorem State.writeByte_drawIndex (a : Nat) (b : Byte) : (s.writeByte a b).drawIndex = s.drawIndex := rfl
@[simp] theorem State.writeByte_outcome (a : Nat) (b : Byte) : (s.writeByte a b).outcome = s.outcome := rfl

/-! ## skipIf -/

@[simp] theorem State.skipIf_mem (taken : Bool) : (s.skipIf taken).mem = s.mem := rfl
@[simp] theorem State.skipIf_v (taken : Bool) : (s.skipIf taken).v = s.v := rfl
@[simp] theorem State.skipIf_regI (taken : Bool) : (s.skipIf taken).regI = s.regI := rfl
@[simp] theorem State.skipIf_pc (taken : Bool) : (s.skipIf taken).pc = if taken then s.pc + 2#16 else s.pc := rfl
@[simp] theorem State.skipIf_stack (taken : Bool) : (s.skipIf taken).stack = s.stack := rfl
@[simp] theorem State.skipIf_sp (taken : Bool) : (s.skipIf taken).sp = s.sp := rfl
@[simp] theorem State.skipIf_dt (taken : Bool) : (s.skipIf taken).dt = s.dt := rfl
@[simp] theorem State.skipIf_st (taken : Bool) : (s.skipIf taken).st = s.st := rfl
@[simp] theorem State.skipIf_keys (taken : Bool) : (s.skipIf taken).keys = s.keys := rfl
@[simp] theorem State.skipIf_fb (taken : Bool) : (s.skipIf taken).fb = s.fb := rfl
@[simp] theorem State.skipIf_modes (taken : Bool) : (s.skipIf taken).modes = s.modes := rfl
@[simp] theorem State.skipIf_fontBase (taken : Bool) : (s.skipIf taken).fontBase = s.fontBase := rfl
@[simp] theorem State.skipIf_drawIndex (taken : Bool) : (s.skipIf taken).drawIndex = s.drawIndex := rfl
@[simp] theorem State.skipIf_outcome (taken : Bool) : (s.skipIf taken).outcome = s.outcome := rfl

/-! ## advance -/

@[simp] theorem State.advance_mem : (s.advance).mem = s.mem := rfl
@[simp] theorem State.advance_v : (s.advance).v = s.v := rfl
@[simp] theorem State.advance_regI : (s.advance).regI = s.regI := rfl
@[simp] theorem State.advance_pc : (s.advance).pc = s.pc + 2#16 := rfl
@[simp] theorem State.advance_stack : (s.advance).stack = s.stack := rfl
@[simp] theorem State.advance_sp : (s.advance).sp = s.sp := rfl
@[simp] theorem State.advance_dt : (s.advance).dt = tick s.dt := rfl
@[simp] theorem State.advance_st : (s.advance).st = tick s.st := rfl
@[simp] theorem State.advance_keys : (s.advance).keys = s.keys := rfl
@[simp] theorem State.advance_fb : (s.advance).fb = s.fb := rfl
@[simp] theorem State.advance_modes : (s.advance).modes = s.modes := rfl
@[simp] theorem State.advance_fontBase : (s.advance).fontBase = s.fontBase := rfl
@[simp] theorem State.advance_drawIndex : (s.advance).drawIndex = s.drawIndex + 1 := rfl
@[simp] theorem State.advance_outcome : (s.advance).outcome = s.outcome := rfl

/-! ## setResultFlag -/

@[simp] theorem State.setResultFlag_mem (x : Reg) (b : Byte) (f : Bool) : (s.setResultFlag x b f).mem = s.mem := rfl
@[simp] theorem State.setResultFlag_regI (x : Reg) (b : Byte) (f : Bool) : (s.setResultFlag x b f).regI = s.regI := rfl
@[simp] theorem State.setResultFlag_pc (x : Reg) (b : Byte) (f : Bool) : (s.setResultFlag x b f).pc = s.pc := rfl
@[simp] theorem State.setResultFlag_stack (x : Reg) (b : Byte) (f : Bool) : (s.setResultFlag x b f).stack = s.stack := rfl
@[simp] theorem State.setResultFlag_sp (x : Reg) (b : Byte) (f : Bool) : (s.setResultFlag x b f).sp = s.sp := rfl
@[simp] theorem State.setResultFlag_dt (x : Reg) (b : Byte) (f : Bool) : (s.setResultFlag x b f).dt = s.dt := rfl
@[simp] theorem State.setResultFlag_st (x : Reg) (b : Byte) (f : Bool) : (s.setResultFlag x b f).st = s.st := rfl
@[simp] theorem State.setResultFlag_keys (x : Reg) (b : Byte) (f : Bool) : (s.setResultFlag x b f).keys = s.keys := rfl
@[simp] theorem State.setResultFlag_fb (x : Reg) (b : Byte) (f : Bool) : (s.setResultFlag x b f).fb = s.fb := rfl
@[simp] theorem State.setResultFlag_modes (x : Reg) (b : Byte) (f : Bool) : (s.setResultFlag x b f).modes = s.modes := rfl
@[simp] theorem State.setResultFlag_fontBase (x : Reg) (b : Byte) (f : Bool) : (s.setResultFlag x b f).fontBase = s.fontBase := rfl
@[simp] theorem State.setResultFlag_drawIndex (x : Reg) (b : Byte) (f : Bool) : (s.setResultFlag x b f).drawIndex = s.drawIndex := rfl
@[simp] theorem State.setResultFlag_outcome (x : Reg) (b : Byte) (f : Bool) : (s.setResultFlag x b f).outcome = s.outcome := rfl

/-! ## loadRegs -/

@[simp] theorem State.loadRegs_mem (x : Reg) : (s.loadRegs x).mem = s.mem := rfl
@[simp] theorem State.loadRegs_regI (x : Reg) : (s.loadRegs x).regI = s.regI := rfl
@[simp] theorem State.loadRegs_pc (x : Reg) : (s.loadRegs x).pc = s.pc := rfl
@[simp] theorem State.loadRegs_stack (x : Reg) : (s.loadRegs x).stack = s.stack := rfl
@[simp] theorem State.loadRegs_sp (x : Reg) : (s.loadRegs x).sp = s.sp := rfl
@[simp] theorem State.loadRegs_dt (x : Reg) : (s.loadRegs x).dt = s.dt := rfl
@[simp] theorem State.loadRegs_st (x : Reg) : (s.loadRegs x).st = s.st := rfl
@[simp] theorem State.loadRegs_keys (x : Reg) : (s.loadRegs x).keys = s.keys := rfl
@[simp] theorem State.loadRegs_fb (x : Reg) : (s.loadRegs x).fb = s.fb := rfl
@[simp] theorem State.loadRegs_modes (x : Reg) : (s.loadRegs x).modes = s.modes := rfl
@[simp] theorem State.loadRegs_fontBase (x : Reg) : (s.loadRegs x).fontBase = s.fontBase := rfl
@[simp] theorem State.loadRegs_drawIndex (x : Reg) : (s.loadRegs x).drawIndex = s.drawIndex := rfl
@[simp] theorem State.loadRegs_outcome (x : Reg) : (s.loadRegs x).outcome = s.outcome := rfl

/-! ## How an instruction ends -/

@[simp] theorem succeed_eq_next (s t : State) : succeed s = .next t ↔ { s with outcome := .success } = t := by
  simp [succeed]

@[simp] theorem raise_eq_next (e : Fault) (s t : State) : raise e s = .next t ↔ { s with outcome := .error e } = t := by
  simp [raise]

end Sys2Proof.Machine
end

