-- ==== Sys2Proof/Laws/Memory.lean ====
section
/-!
SUPPORT. The laws of memory: a read after a write, what runs of bytes read and write, and that every operation keeps the
canonical form. The read laws need no canonical form; they hold of every list.
-/

namespace Sys2Proof.Machine

/-! ## One byte -/

theorem Memory.read_insert (fb : FontBase) (m : Memory) (a a' : Nat) (b : Byte) (h : ∀ c ∈ m, c.1 ≠ a) :
    Memory.read fb (Memory.insert a b m) a' = if a' = a then b else Memory.read fb m a' := by
  induction m with
  | nil => simp [Memory.insert, Memory.read, eq_comm]
  | cons c rest ih =>
    have hc : c.1 ≠ a := h c (by simp)
    have hr := ih (fun d hd => h d (by simp [hd]))
    by_cases hlt : a < c.1
    · simp [Memory.insert, hlt, Memory.read, eq_comm]
    · simp only [Memory.insert, hlt, Memory.read, if_false, hr]
      by_cases h1 : c.1 = a'
      · have : a' ≠ a := h1 ▸ hc
        simp [h1, this]
      · simp [h1]

theorem Memory.read_filter (fb : FontBase) (m : Memory) (a a' : Nat) :
    Memory.read fb (m.filter (fun c => c.1 != a)) a' =
      if a' = a then resetByte fb a else Memory.read fb m a' := by
  induction m with
  | nil => by_cases h : a' = a <;> simp [Memory.read, h]
  | cons c rest ih =>
    by_cases hc : c.1 = a
    · simp only [hc, bne_self_eq_false, Bool.false_eq_true, not_false_eq_true, List.filter_cons_of_neg, ih]
      by_cases h : a' = a
      · simp [h]
      · have : c.1 ≠ a' := fun e => h (by rw [← e, hc])
        simp [h, Memory.read, this]
    · have hb : (c.1 != a) = true := by simp [hc]
      rw [List.filter_cons_of_pos (by simpa using hb)]
      simp only [Memory.read, ih]
      by_cases h1 : c.1 = a'
      · have : a' ≠ a := h1 ▸ hc
        simp [h1, this]
      · simp [h1]

/-- A read after a write, at any two addresses and in any memory. -/
theorem Memory.read_write (fb : FontBase) (m : Memory) (a a' : Nat) (b : Byte) :
    Memory.read fb (Memory.write fb m a b) a' = if a' = a then b else Memory.read fb m a' := by
  unfold Memory.write
  split
  · rename_i h
    rw [Memory.read_filter, h]
  · rw [Memory.read_insert _ _ _ _ _ (by simp), Memory.read_filter]
    split <;> rfl

@[simp] theorem State.readByte_writeByte (s : State) (a a' : Nat) (b : Byte) :
    (s.writeByte a b).readByte a' = if a' = a then b else s.readByte a' :=
  Memory.read_write ..

/-- A read depends on nothing but memory and FONT_BASE. -/
theorem State.readByte_congr {s t : State} (hm : t.mem = s.mem) (hf : t.fontBase = s.fontBase) (a : Nat) :
    t.readByte a = s.readByte a := by
  simp [State.readByte, hm, hf]

/-! ## Runs of bytes -/

@[simp] theorem State.readRun_length (s : State) (a n : Nat) : (s.readRun a n).length = n := by
  induction n generalizing a with
  | zero => rfl
  | succ n ih => simp [State.readRun, ih]

theorem State.readRun_getElem (s : State) (a n k : Nat) (h : k < (s.readRun a n).length) :
    (s.readRun a n)[k] = s.readByte (a + k) := by
  induction n generalizing a k with
  | zero => simp [State.readRun] at h
  | succ n ih =>
    cases k with
    | zero => simp [State.readRun]
    | succ k => simp only [State.readRun, List.getElem_cons_succ, ih]; congr 1; omega

/-- The fields a run of writes leaves: all but memory. -/
theorem State.writeRun_eq (a : Nat) (bs : List Byte) (s : State) :
    s.writeRun a bs = { s with mem := (s.writeRun a bs).mem } := by
  induction bs generalizing a s with
  | nil => rfl
  | cons b bs ih => simp only [State.writeRun]; rw [ih]; rfl

/-- What a run of writes leaves at each address. -/
theorem State.readByte_writeRun (s : State) (a a' : Nat) (bs : List Byte) :
    (s.writeRun a bs).readByte a' = if a ≤ a' then (bs[a' - a]?).getD (s.readByte a') else s.readByte a' := by
  induction bs generalizing a s with
  | nil => simp [State.writeRun]
  | cons b bs ih =>
    simp only [State.writeRun, ih, State.readByte_writeByte]
    by_cases h0 : a' = a
    · subst h0; simp
    · by_cases h1 : a ≤ a'
      · obtain ⟨d, rfl⟩ : ∃ d, a' = a + 1 + d := ⟨a' - (a + 1), by omega⟩
        have e1 : a + 1 + d - a = d + 1 := by omega
        have e2 : a ≤ a + 1 + d := by omega
        simp [e1, e2, h0]
      · have : ¬ a + 1 ≤ a' := by omega
        simp [h1, this, h0]

/-! ## The canonical form -/

theorem Memory.mem_insert (a : Nat) (b : Byte) (m : Memory) (c : Host.Cell) :
    c ∈ Memory.insert a b m ↔ c = (a, b) ∨ c ∈ m := by
  induction m with
  | nil => simp [Memory.insert]
  | cons d rest ih =>
    unfold Memory.insert
    split
    · simp
    · simp [ih, or_left_comm]

theorem Memory.pairwise_insert (a : Nat) (b : Byte) (m : Memory) (hp : m.Pairwise (fun c d => c.1 < d.1))
    (hn : ∀ c ∈ m, c.1 ≠ a) : (Memory.insert a b m).Pairwise (fun c d => c.1 < d.1) := by
  induction m with
  | nil => simp [Memory.insert]
  | cons d rest ih =>
    rw [List.pairwise_cons] at hp
    unfold Memory.insert
    split
    · rename_i h
      refine List.pairwise_cons.2 ⟨fun c hc => ?_, List.pairwise_cons.2 hp⟩
      rcases List.mem_cons.1 hc with rfl | hc
      · exact h
      · exact Nat.lt_trans h (hp.1 c hc)
    · rename_i h
      refine List.pairwise_cons.2 ⟨fun c hc => ?_, ih hp.2 (fun c hc => hn c (by simp [hc]))⟩
      rcases (Memory.mem_insert ..).1 hc with rfl | hc
      · have := hn d (by simp)
        show d.1 < a
        omega
      · exact hp.1 c hc

/-- A write inside the 4096 bytes keeps the canonical form. -/
theorem Memory.write_wf (fb : FontBase) (m : Memory) (a : Nat) (b : Byte) (ha : a < Config.memSize)
    (h : Memory.wf fb m) : Memory.wf fb (Memory.write fb m a b) := by
  have hsub := m.filter_sublist (p := fun c => c.1 != a)
  have hf : Memory.wf fb (m.filter (fun c => c.1 != a)) :=
    ⟨h.1.sublist hsub, fun c hc => h.2 c (hsub.subset hc)⟩
  unfold Memory.write
  split
  · exact hf
  · rename_i hb
    refine ⟨Memory.pairwise_insert _ _ _ hf.1 (by simp), fun c hc => ?_⟩
    rcases (Memory.mem_insert ..).1 hc with rfl | hc
    · exact ⟨ha, hb⟩
    · exact hf.2 c hc

/-- A run of writes inside the 4096 bytes keeps the canonical form. -/
theorem State.writeRun_wf (s : State) (a : Nat) (bs : List Byte) (ha : a + bs.length ≤ Config.memSize)
    (h : Memory.wf s.fontBase s.mem) :
    Memory.wf (s.writeRun a bs).fontBase (s.writeRun a bs).mem := by
  induction bs generalizing a s with
  | nil => exact h
  | cons b bs ih =>
    simp only [List.length_cons] at ha
    exact ih (s.writeByte a b) (a + 1) (by omega) (Memory.write_wf _ _ _ _ (by omega) h)

/-- Reset memory lists nothing, which is canonical. -/
theorem Memory.wf_nil (fb : FontBase) : Memory.wf fb [] := ⟨List.Pairwise.nil, by simp⟩

theorem Memory.read_of_lt (fb : FontBase) (m : Memory) (a : Nat) (h : ∀ c ∈ m, a < c.1) :
    Memory.read fb m a = resetByte fb a := by
  induction m with
  | nil => rfl
  | cons c rest ih =>
    have : c.1 ≠ a := fun e => absurd (h c (by simp)) (by omega)
    simp only [Memory.read, this, if_false]
    exact ih (fun d hd => h d (by simp [hd]))

/-- Canonical memories that read the same everywhere are the same list. -/
theorem Memory.eq_of_read_eq (fb : FontBase) (m m' : Memory) (h : Memory.wf fb m) (h' : Memory.wf fb m')
    (hr : ∀ a, Memory.read fb m a = Memory.read fb m' a) : m = m' := by
  induction m generalizing m' with
  | nil =>
    cases m' with
    | nil => rfl
    | cons c rest => exact absurd (hr c.1).symm (by simpa [Memory.read] using (h'.2 c (by simp)).2)
  | cons c rest ih =>
    have hp := List.pairwise_cons.1 h.1
    cases m' with
    | nil => exact absurd (hr c.1) (by simpa [Memory.read] using (h.2 c (by simp)).2)
    | cons d rest' =>
      have hp' := List.pairwise_cons.1 h'.1
      have hcd : c.1 = d.1 := by
        rcases Nat.lt_trichotomy c.1 d.1 with hlt | he | hlt
        · have := hr c.1
          rw [Memory.read_of_lt fb (d :: rest') c.1 (fun e he => by
            rcases List.mem_cons.1 he with rfl | he
            · exact hlt
            · exact Nat.lt_trans hlt (hp'.1 e he))] at this
          exact absurd this (by simpa [Memory.read] using (h.2 c (by simp)).2)
        · exact he
        · have := hr d.1
          rw [Memory.read_of_lt fb (c :: rest) d.1 (fun e he => by
            rcases List.mem_cons.1 he with rfl | he
            · exact hlt
            · exact Nat.lt_trans hlt (hp.1 e he))] at this
          exact absurd this.symm (by simpa [Memory.read] using (h'.2 d (by simp)).2)
      have hb : c.2 = d.2 := by simpa [Memory.read, hcd] using hr c.1
      have hrest : rest = rest' := by
        refine ih rest' ⟨hp.2, fun e he => h.2 e (by simp [he])⟩ ⟨hp'.2, fun e he => h'.2 e (by simp [he])⟩ (fun a => ?_)
        by_cases ha : c.1 = a
        · rw [Memory.read_of_lt fb rest a (fun e he => ha ▸ hp.1 e he),
            Memory.read_of_lt fb rest' a (fun e he => ha ▸ hcd ▸ hp'.1 e he)]
        · simpa [Memory.read, ha, hcd ▸ ha] using hr a
      rw [hrest, Prod.ext hcd hb]

end Sys2Proof.Machine
end

