-- ==== Sys2Proof/Laws/Ops.lean ====
section
/-!
SUPPORT. One lemma per shared operation that says everything it can do: registers, the stack, the fetch and the step, the
screen, and the operands.
-/

namespace Sys2Proof.Machine

/-! ## Registers -/

theorem State.reg_setReg (s : State) (x j : Reg) (b : Byte) :
    (s.setReg x b).reg j = if j = x then b else s.reg j := by
  simp only [State.reg, State.setReg, Vector.getElem_set, BitVec.toNat_inj, eq_comm]

@[simp] theorem State.reg_setReg_self (s : State) (x : Reg) (b : Byte) : (s.setReg x b).reg x = b := by
  simp [State.reg_setReg]

theorem State.reg_setReg_ne (s : State) {x j : Reg} (h : j ≠ x) (b : Byte) : (s.setReg x b).reg j = s.reg j := by
  simp [State.reg_setReg, h]

/-- Every register number is one of sixteen. -/
theorem reg_cases (p : Reg → Prop) (h : ∀ k : Fin 16, p (BitVec.ofFin k)) (j : Reg) : p j := h j.toFin

@[simp] theorem State.reg_setRegs (s : State) (f : Reg → Byte) (j : Reg) : (s.setRegs f).reg j = f j := by
  revert j
  refine reg_cases _ (fun k => ?_)
  fin_cases k <;> rfl

/-- Two register files that read the same are the same. -/
theorem State.v_ext {s t : State} (h : ∀ j, t.reg j = s.reg j) : t.v = s.v := by
  apply Vector.ext
  intro i hi
  have := h (BitVec.ofFin ⟨i, hi⟩)
  simpa [State.reg] using this

@[simp] theorem State.reg_setI (s : State) (a : Word) (j : Reg) : (s.setI a).reg j = s.reg j := rfl
@[simp] theorem State.reg_setPc (s : State) (a : Word) (j : Reg) : (s.setPc a).reg j = s.reg j := rfl
@[simp] theorem State.reg_setFb (s : State) (fb : Screen) (j : Reg) : (s.setFb fb).reg j = s.reg j := rfl
@[simp] theorem State.reg_advance (s : State) (j : Reg) : s.advance.reg j = s.reg j := rfl
@[simp] theorem State.readByte_advance (s : State) (a : Nat) : s.advance.readByte a = s.readByte a := rfl

/-- The result lands in V[x] and the flag, written last, in VF. -/
theorem State.reg_setResultFlag (s : State) (x j : Reg) (b : Byte) (f : Bool) :
    (s.setResultFlag x b f).reg j = if j = vf then flagByte f else if j = x then b else s.reg j := by
  simp [State.setResultFlag, State.reg_setReg]

/-- FX65's register file. -/
theorem State.reg_loadRegs (s : State) (x j : Reg) :
    (s.loadRegs x).reg j = if j.toNat ≤ x.toNat then s.readByte (s.regI.toNat + j.toNat) else s.reg j := by
  simp [State.loadRegs]

/-- FX55's bytes. -/
theorem State.regsUpTo_getElem? (s : State) (x : Reg) (k : Nat) :
    (s.regsUpTo x)[k]? = if k ≤ x.toNat then some (s.reg (BitVec.ofNat 4 k)) else none := by
  have hx := x.isLt
  by_cases h : k ≤ x.toNat
  · have hk : k < 16 := by omega
    have hm : k % 16 = k := Nat.mod_eq_of_lt hk
    simp [State.regsUpTo, h, State.reg, hm, hk, Nat.lt_succ_of_le h]
  · simp [State.regsUpTo, h]

@[simp] theorem State.regsUpTo_length (s : State) (x : Reg) : (s.regsUpTo x).length = x.toNat + 1 := by
  have := x.isLt
  simp [State.regsUpTo]; omega

/-! ## The bounds check and skips -/

/-- The check passes exactly when the n bytes at I fit the 4096. -/
theorem State.runInBounds_cases (s : State) (n : Nat) :
    (s.regI.toNat + n ≤ 4096 ∧ s.runInBounds n = true) ∨ (4096 < s.regI.toNat + n ∧ s.runInBounds n = false) := by
  by_cases h : s.regI.toNat + n ≤ 4096
  · exact .inl ⟨h, by simpa [State.runInBounds] using h⟩
  · exact .inr ⟨by omega, by simpa [State.runInBounds] using h⟩

theorem State.skipIf_pc_toNat (s : State) (taken : Bool) :
    (s.skipIf taken).pc.toNat = if taken then (s.pc.toNat + 2) % 65536 else s.pc.toNat := by
  cases taken <;> simp [State.skipIf]

theorem State.indexAfterCopy_toNat (s : State) (x : Reg) (h : s.regI.toNat + (x.toNat + 1) ≤ 4096) :
    (s.indexAfterCopy x).toNat = if s.modes.index then s.regI.toNat + x.toNat + 1 else s.regI.toNat := by
  have := x.isLt
  unfold State.indexAfterCopy
  split
  · simp; omega
  · rfl

/-! ## The stack -/

/-- What Push answers: the value in the slot at SP and SP one up, or nothing when the stack is full. -/
theorem State.push_cases (s : State) (value : Word) :
    (s.sp.val = 16 ∧ s.push value = none) ∨
    (∃ h : s.sp.val < 16,
      s.push value = some { s with stack := s.stack.set s.sp.val value, sp := ⟨s.sp.val + 1, by omega⟩ }) := by
  by_cases h : s.sp.val < 16
  · exact .inr ⟨h, by simp [State.push, h]⟩
  · exact .inl ⟨by have := s.sp.isLt; omega, by simp [State.push, h]⟩

/-- What Pop answers: the slot below SP and SP one down, or nothing when the stack is empty. -/
theorem State.pop_cases (s : State) :
    (s.sp.val = 0 ∧ s.pop = none) ∨
    (∃ h : 0 < s.sp.val,
      s.pop = some (s.stack[s.sp.val - 1]'(by omega), { s with sp := ⟨s.sp.val - 1, by omega⟩ })) := by
  by_cases h : 0 < s.sp.val
  · exact .inr ⟨h, by simp [State.pop, h]⟩
  · exact .inl ⟨by omega, by simp [State.pop, h]⟩

/-! ## The step -/

/-- What a step can do: run the word at PC from the advanced state, or report a fetch past the end. -/
theorem step_cases (s : State) :
    (s.pc.toNat ≤ 0xFFE ∧ step s = exec (decodeWord s.fetch16) s.advance) ∨
    (0xFFE < s.pc.toNat ∧ step s = raise .memoryOutOfBounds s) := by
  by_cases h : s.pc.toNat ≤ 0xFFE
  · exact .inl ⟨h, by simp [step, State.fetch?, h]⟩
  · exact .inr ⟨by omega, by simp [step, State.fetch?, h]⟩

theorem tick_toNat (t : Byte) : (tick t).toNat = t.toNat - 1 := by
  unfold tick
  split
  · rename_i h; simp [h]
  · rename_i h
    have : t.toNat ≠ 0 := fun e => h (BitVec.eq_of_toNat_eq (by simpa using e))
    rw [BitVec.toNat_sub_of_le (by simp [BitVec.le_def]; omega)]
    rfl

/-! ## The screen -/

/-- A pixel read after a pixel written, coordinates modulo the screen. -/
theorem Screen.pixel_setPixel (fb : Screen) (x y x' y' : Nat) (b : Bool) :
    (fb.setPixel x y b).pixel x' y' = if x' % 64 = x % 64 ∧ y' % 32 = y % 32 then b else fb.pixel x' y' := by
  simp only [Screen.pixel, Screen.setPixel, Vector.getElem_set]
  by_cases hy : y % 32 = y' % 32
  · by_cases hx : x % 64 = x' % 64
    · simp [hx, hy]
    · simp [hx, hy, Ne.symm hx]
  · simp [hy, Ne.symm hy]

@[simp] theorem Screen.pixel_blank (x y : Nat) : Screen.blank.pixel x y = false := by
  simp [Screen.pixel, Screen.blank]

/-- Screens that show the same pixels are the same. -/
theorem Screen.ext_pixel {a b : Screen} (h : ∀ x y, x < 64 → y < 32 → a.pixel x y = b.pixel x y) : a = b := by
  apply Vector.ext
  intro y hy
  apply Vector.ext
  intro x hx
  simpa [Screen.pixel, Nat.mod_eq_of_lt hx, Nat.mod_eq_of_lt hy] using h x y hx hy

/-! ## Operands -/

/-- The lowest pressed key, or none when KEYS is 0. -/
theorem lowestKey_cases (keys : Word) :
    (keys = 0#16 ∧ lowestKey keys = none) ∨
    (∃ k, k < 16 ∧ keys.getLsbD k = true ∧ (∀ j < k, keys.getLsbD j = false) ∧ lowestKey keys = some k) := by
  cases h : lowestKey keys with
  | none =>
    refine .inl ⟨BitVec.eq_of_getLsbD_eq (fun i hi => ?_), rfl⟩
    have := (List.find?_eq_none.1 h) i (List.mem_range.2 hi)
    simpa using this
  | some k =>
    obtain ⟨hk, as, bs, hl, hno⟩ := List.find?_eq_some_iff_append.1 h
    have hlen : as.length = k := by
      have h1 : (List.range 16)[as.length]? = some k := by rw [hl]; simp
      rw [List.getElem?_eq_some_iff] at h1
      obtain ⟨_, h1⟩ := h1
      simpa using h1
    have hlt : as.length < 16 := by
      have := congrArg List.length hl
      simp at this
      omega
    refine .inr ⟨k, by omega, by simpa using hk, fun j hj => ?_, rfl⟩
    have hmem : j ∈ as := by
      have h1 : (List.range 16)[j]? = some j := List.getElem?_range (by omega)
      rw [hl, List.getElem?_append_left (by omega)] at h1
      exact List.mem_of_getElem? h1
    simpa using hno j hmem

end Sys2Proof.Machine
end

