-- ==== Sys2Proof/Laws/Exec.lean ====
section
/-!
SUPPORT. What the instructions with more than one ending can answer: each case with its condition and its whole answer.
-/

namespace Sys2Proof.Machine

theorem execRet_cases (s : State) :
    (s.sp.val = 0 ∧ exec .ret s = raise .stackEmpty s) ∨
    (∃ h : 0 < s.sp.val, exec .ret s =
      succeed { s with pc := s.stack[s.sp.val - 1]'(by omega), sp := ⟨s.sp.val - 1, by omega⟩ }) := by
  rcases s.pop_cases with ⟨h, hp⟩ | ⟨h, hp⟩
  · exact .inl ⟨h, by simp only [exec, execRet, hp]⟩
  · exact .inr ⟨h, by simp only [exec, execRet, hp]; rfl⟩

theorem execCall_cases (nnn : Addr) (s : State) :
    (s.sp.val = 16 ∧ exec (.call nnn) s = raise .stackOverflow s) ∨
    (∃ h : s.sp.val < 16, exec (.call nnn) s =
      succeed { s with pc := zext16 nnn, stack := s.stack.set s.sp.val s.pc, sp := ⟨s.sp.val + 1, by omega⟩ }) := by
  rcases s.push_cases s.pc with ⟨h, hp⟩ | ⟨h, hp⟩
  · exact .inl ⟨h, by simp only [exec, execCall, hp]⟩
  · exact .inr ⟨h, by simp only [exec, execCall, hp]; rfl⟩

theorem execLdVxK_cases (x : Reg) (s : State) :
    (s.keys = 0#16 ∧ exec (.ldVxK x) s = succeed (s.setPc (s.pc - 2#16))) ∨
    (∃ k, k < 16 ∧ s.keys.getLsbD k = true ∧ (∀ j < k, s.keys.getLsbD j = false) ∧
      exec (.ldVxK x) s = succeed (s.setReg x (BitVec.ofNat 8 k))) := by
  rcases lowestKey_cases s.keys with ⟨h, hk⟩ | ⟨k, h, h1, h2, hk⟩
  · exact .inl ⟨h, by simp only [exec, execLdVxK, hk]⟩
  · exact .inr ⟨k, h, h1, h2, by simp only [exec, execLdVxK, hk]⟩

theorem execLdB_cases (x : Reg) (s : State) :
    (s.regI.toNat + 3 ≤ 4096 ∧ exec (.ldB x) s = succeed (s.writeRun s.regI.toNat (bcd (s.reg x)))) ∨
    (4096 < s.regI.toNat + 3 ∧ exec (.ldB x) s = raise .memoryOutOfBounds s) := by
  rcases s.runInBounds_cases 3 with ⟨h, hb⟩ | ⟨h, hb⟩
  · exact .inl ⟨h, by simp [exec, execLdB, hb]⟩
  · exact .inr ⟨h, by simp [exec, execLdB, hb]⟩

theorem execStRegs_cases (x : Reg) (s : State) :
    (s.regI.toNat + (x.toNat + 1) ≤ 4096 ∧
      exec (.stRegs x) s = succeed ((s.writeRun s.regI.toNat (s.regsUpTo x)).setI (s.indexAfterCopy x))) ∨
    (4096 < s.regI.toNat + (x.toNat + 1) ∧ exec (.stRegs x) s = raise .memoryOutOfBounds s) := by
  rcases s.runInBounds_cases (x.toNat + 1) with ⟨h, hb⟩ | ⟨h, hb⟩
  · exact .inl ⟨h, by simp [exec, execStRegs, hb]⟩
  · exact .inr ⟨h, by simp [exec, execStRegs, hb]⟩

theorem execLdRegs_cases (x : Reg) (s : State) :
    (s.regI.toNat + (x.toNat + 1) ≤ 4096 ∧
      exec (.ldRegs x) s = succeed ((s.loadRegs x).setI (s.indexAfterCopy x))) ∨
    (4096 < s.regI.toNat + (x.toNat + 1) ∧ exec (.ldRegs x) s = raise .memoryOutOfBounds s) := by
  rcases s.runInBounds_cases (x.toNat + 1) with ⟨h, hb⟩ | ⟨h, hb⟩
  · exact .inl ⟨h, by simp [exec, execLdRegs, hb]⟩
  · exact .inr ⟨h, by simp [exec, execLdRegs, hb]⟩

/-- The screen and the collision DRW leaves. -/
def drawn (x y : Reg) (n : Nibble) (s : State) : Screen × Bool :=
  drawRows (s.reg x).toNat (s.reg y).toNat (s.readRun s.regI.toNat n.toNat) (s.fb, false)

theorem execDrw_cases (x y : Reg) (n : Nibble) (s : State) :
    (s.regI.toNat + n.toNat ≤ 4096 ∧
      exec (.drw x y n) s = succeed ((s.setFb (drawn x y n s).1).setReg vf (flagByte (drawn x y n s).2))) ∨
    (4096 < s.regI.toNat + n.toNat ∧ exec (.drw x y n) s = raise .memoryOutOfBounds s) := by
  rcases s.runInBounds_cases n.toNat with ⟨h, hb⟩ | ⟨h, hb⟩
  · exact .inl ⟨h, by simp [exec, execDrw, hb, drawn]⟩
  · exact .inr ⟨h, by simp [exec, execDrw, hb]⟩

/-! ## Drawing as a list of points -/

/-- The points of one sprite row: column, row and bit, leftmost first. -/
def rowPoints (ox py : Nat) (b : Byte) : List (Nat × Nat × Bool) :=
  (List.range 8).map (fun col => (ox + col, py, b.getLsbD (7 - col)))

/-- Draw a list of points in order. -/
def drawPoints (pts : List (Nat × Nat × Bool)) (p : Screen × Bool) : Screen × Bool :=
  pts.foldl (fun p q => drawBit q.1 q.2.1 q.2.2 p) p

theorem drawRow_eq_points (ox py : Nat) (b : Byte) (p : Screen × Bool) :
    drawRow ox py b p = drawPoints (rowPoints ox py b) p := by
  simp only [drawRow, drawPoints, rowPoints, List.foldl_map]

/-- Whether two points name the same cell, coordinates modulo the screen. -/
def sameCell (q : Nat × Nat × Bool) (x y : Nat) : Bool := decide (x % 64 = q.1 % 64 ∧ y % 32 = q.2.1 % 32)

theorem drawBit_fst_pixel (px py : Nat) (b : Bool) (p : Screen × Bool) (x y : Nat) :
    (drawBit px py b p).1.pixel x y = (p.1.pixel x y ^^ (sameCell (px, py, b) x y && b)) := by
  simp only [drawBit, Screen.pixel_setPixel, sameCell]
  split
  · rename_i h
    have : p.1.pixel px py = p.1.pixel x y := by simp only [Screen.pixel, h]
    simp [h, this]
  · rename_i h; simp [h]

/-- Points on different cells: each cell is XORed with its point's bit, and the collision is a set bit on a lit cell. -/
theorem drawPoints_spec (pts : List (Nat × Nat × Bool)) (p : Screen × Bool)
    (hd : pts.Pairwise (fun q r => sameCell q r.1 r.2.1 = false)) :
    (∀ x y, (drawPoints pts p).1.pixel x y = (p.1.pixel x y ^^ pts.any (fun q => sameCell q x y && q.2.2))) ∧
    (drawPoints pts p).2 = (p.2 || pts.any (fun q => q.2.2 && p.1.pixel q.1 q.2.1)) := by
  induction pts generalizing p with
  | nil => simp [drawPoints]
  | cons q rest ih =>
    obtain ⟨hq, hrest⟩ := List.pairwise_cons.1 hd
    obtain ⟨h1, h2⟩ := ih (drawBit q.1 q.2.1 q.2.2 p) hrest
    have hstep : drawPoints (q :: rest) p = drawPoints rest (drawBit q.1 q.2.1 q.2.2 p) := rfl
    rw [hstep]
    constructor
    · intro x y
      rw [h1, drawBit_fst_pixel]
      cases hs : sameCell q x y && q.2.2 with
      | false => simp [hs]
      | true =>
        have hcell : sameCell q x y = true := by simp only [Bool.and_eq_true] at hs; exact hs.1
        have hno : rest.any (fun r => sameCell r x y && r.2.2) = false := by
          rw [List.any_eq_false]
          intro r hr
          have := hq r hr
          simp only [sameCell, decide_eq_false_iff_not, decide_eq_true_eq] at this hcell ⊢
          intro hc
          simp only [Bool.and_eq_true, decide_eq_true_eq] at hc
          omega
        simp [hs, hno]
    · rw [h2]
      have hany : rest.any (fun r => r.2.2 && (drawBit q.1 q.2.1 q.2.2 p).1.pixel r.1 r.2.1) =
          rest.any (fun r => r.2.2 && p.1.pixel r.1 r.2.1) := by
        rw [Bool.eq_iff_iff, List.any_eq_true, List.any_eq_true]
        exact exists_congr (fun r => and_congr_right (fun hr => by rw [drawBit_fst_pixel, hq r hr]; simp))
      rw [hany]
      simp [drawBit, Bool.or_assoc]

end Sys2Proof.Machine
end

