-- ==== Sys2Proof/Laws/Frame.lean ====
section
/-!
SUPPORT. What each named update writes, as a frame, and that frames widen.
-/

namespace Sys2Proof.Safety

open Sys2Proof.Machine

/-- Reporting an outcome writes nothing else. -/
theorem Frame.outcome (w : Writes) (s : State) (o : StepOutcome) : Frame w s { s with outcome := o } := by
  constructor <;> intros <;> first | rfl | exact ⟨rfl, rfl⟩

/-- A state that agrees with `t` but for the outcome is framed as `t` is. -/
theorem Frame.withOutcome {w : Writes} {s t : State} (h : Frame w s t) (o : StepOutcome) :
    Frame w s { t with outcome := o } :=
  ⟨h.reg, h.regI, h.pc, h.stack, h.dt, h.st, h.fb, h.mem, h.keys, h.modes, h.fontBase, h.drawIndex⟩

theorem Frame.setPc (s : State) (a : Word) : Frame { pc := true } s (s.setPc a) := by
  constructor <;> intros <;> first | rfl | exact ⟨rfl, rfl⟩ | simp_all

theorem Frame.setI (s : State) (a : Word) : Frame { regI := true } s (s.setI a) := by
  constructor <;> intros <;> first | rfl | exact ⟨rfl, rfl⟩ | simp_all

theorem Frame.setDt (s : State) (b : Byte) : Frame { dt := true } s (s.setDt b) := by
  constructor <;> intros <;> first | rfl | exact ⟨rfl, rfl⟩ | simp_all

theorem Frame.setSt (s : State) (b : Byte) : Frame { st := true } s (s.setSt b) := by
  constructor <;> intros <;> first | rfl | exact ⟨rfl, rfl⟩ | simp_all

theorem Frame.setFb (s : State) (fb : Screen) : Frame { fb := true } s (s.setFb fb) := by
  constructor <;> intros <;> first | rfl | exact ⟨rfl, rfl⟩ | simp_all

theorem Frame.setReg (s : State) (x : Reg) (b : Byte) : Frame { reg := only x } s (s.setReg x b) := by
  constructor
  case reg => exact fun j hj => State.reg_setReg_ne s (by simpa [only] using hj) b
  all_goals intros; first | rfl | exact ⟨rfl, rfl⟩

theorem Frame.setResultFlag (s : State) (x : Reg) (b : Byte) (f : Bool) :
    Frame { reg := andFlag x } s (s.setResultFlag x b f) := by
  constructor
  case reg =>
    intro j hj
    have : j ≠ x ∧ j ≠ vf := by simpa [andFlag] using hj
    simp [State.reg_setResultFlag, this]
  all_goals intros; first | rfl | exact ⟨rfl, rfl⟩

/-- A run of writes changes only its own bytes. -/
theorem Frame.writeRun (s : State) (a : Nat) (bs : List Byte) :
    Frame { mem := bytesAt a bs.length } s (s.writeRun a bs) := by
  constructor
  case mem =>
    intro b hb
    rw [State.readByte_writeRun]
    split
    · have : bs.length ≤ b - a := by simp [bytesAt] at hb; omega
      rw [List.getElem?_eq_none this]; rfl
    · rfl
  all_goals (intros; rw [State.writeRun_eq]; try first | rfl | exact ⟨rfl, rfl⟩)

/-- Two updates in a row write what either may write. -/
theorem Frame.trans {w w' : Writes} {s t u : State} (h : Frame w s t) (h' : Frame w' t u) :
    Frame { reg := fun j => w.reg j || w'.reg j, regI := w.regI || w'.regI, pc := w.pc || w'.pc,
            stack := w.stack || w'.stack, dt := w.dt || w'.dt, st := w.st || w'.st, fb := w.fb || w'.fb,
            mem := fun a => w.mem a || w'.mem a } s u := by
  constructor <;> intros <;> simp_all [Bool.or_eq_false_iff, h.keys, h'.keys, h.modes, h'.modes, h.fontBase, h'.fontBase,
    h.drawIndex, h'.drawIndex, h.reg, h'.reg, h.regI, h'.regI, h.pc, h'.pc, h.stack, h'.stack, h.dt, h'.dt, h.st, h'.st,
    h.fb, h'.fb, h.mem, h'.mem]

end Sys2Proof.Safety
end

