-- ==== Sys2Proof/Laws/HostOps.lean ====
section
/-!
SUPPORT. What the host's mode mutator (70_reset R213) does to each field, once: it writes MODES, and the step after it fetches
and ticks as before.
-/

namespace Sys2Proof.Machine

variable (m : Modes) (s : State)

@[simp] theorem setModes_mem : (setModes m s).mem = s.mem := rfl
@[simp] theorem setModes_v : (setModes m s).v = s.v := rfl
@[simp] theorem setModes_regI : (setModes m s).regI = s.regI := rfl
@[simp] theorem setModes_pc : (setModes m s).pc = s.pc := rfl
@[simp] theorem setModes_stack : (setModes m s).stack = s.stack := rfl
@[simp] theorem setModes_sp : (setModes m s).sp = s.sp := rfl
@[simp] theorem setModes_dt : (setModes m s).dt = s.dt := rfl
@[simp] theorem setModes_st : (setModes m s).st = s.st := rfl
@[simp] theorem setModes_keys : (setModes m s).keys = s.keys := rfl
@[simp] theorem setModes_fb : (setModes m s).fb = s.fb := rfl
@[simp] theorem setModes_modes : (setModes m s).modes = m := rfl
@[simp] theorem setModes_fontBase : (setModes m s).fontBase = s.fontBase := rfl
@[simp] theorem setModes_drawIndex : (setModes m s).drawIndex = s.drawIndex := rfl
@[simp] theorem setModes_outcome : (setModes m s).outcome = s.outcome := rfl
@[simp] theorem setModes_reg (x : Reg) : (setModes m s).reg x = s.reg x := rfl
@[simp] theorem setModes_readByte (a : Nat) : (setModes m s).readByte a = s.readByte a := rfl
@[simp] theorem setModes_fetch16 : (setModes m s).fetch16 = s.fetch16 := rfl

/-- The advance of a step does not read the mode flags. -/
theorem setModes_advance : (setModes m s).advance = setModes m s.advance := rfl

/-- A toggle is a SetModes with one flag turned over. -/
theorem toggleShift_eq : toggleShift s = setModes { s.modes with shift := !s.modes.shift } s := rfl
theorem toggleJump_eq : toggleJump s = setModes { s.modes with jump := !s.modes.jump } s := rfl
theorem toggleIndex_eq : toggleIndex s = setModes { s.modes with index := !s.modes.index } s := rfl

end Sys2Proof.Machine
end

