-- ==== Sys2Proof/Laws/PerInstr.lean ====
section
/-!
SUPPORT. The statement made of every instruction: the word it encodes to carries the fixed bits of its row of the opcode map
(30_encoding R75).
-/

namespace Sys2Proof.Laws.EncodeRow

/-- The instruction's word has the bits of its row, and the row is in the map; INVALID has no row. -/
def Statement (i : Instr) : Prop := ∀ row, i.row = some row → row ∈ opcodeMap ∧ encode i &&& row.1 = row.2

theorem of_row {i : Instr} {mask bits : Word} (hr : i.row = some (mask, bits)) (hm : (mask, bits) ∈ opcodeMap)
    (hw : encode i &&& mask = bits) : Statement i := by
  intro row h
  rw [hr] at h
  obtain rfl := Option.some.inj h
  exact ⟨hm, hw⟩

theorem cls : Statement (.cls) := of_row rfl (by decide) (by decide)
theorem ret : Statement (.ret) := of_row rfl (by decide) (by decide)
theorem jp (nnn : Addr) : Statement (.jp nnn) := of_row rfl (by decide) ((formatA_mask ..).trans (by decide))
theorem call (nnn : Addr) : Statement (.call nnn) := of_row rfl (by decide) ((formatA_mask ..).trans (by decide))
theorem seByte (x : Reg) (kk : Byte) : Statement (.seByte x kk) := of_row rfl (by decide) ((formatXK_mask ..).trans (by decide))
theorem sneByte (x : Reg) (kk : Byte) : Statement (.sneByte x kk) := of_row rfl (by decide) ((formatXK_mask ..).trans (by decide))
theorem seReg (x : Reg) (y : Reg) : Statement (.seReg x y) := of_row rfl (by decide) ((nibbles_mask ..).trans (by decide))
theorem ldByte (x : Reg) (kk : Byte) : Statement (.ldByte x kk) := of_row rfl (by decide) ((formatXK_mask ..).trans (by decide))
theorem addByte (x : Reg) (kk : Byte) : Statement (.addByte x kk) := of_row rfl (by decide) ((formatXK_mask ..).trans (by decide))
theorem ldReg (x : Reg) (y : Reg) : Statement (.ldReg x y) := of_row rfl (by decide) ((nibbles_mask ..).trans (by decide))
theorem orReg (x : Reg) (y : Reg) : Statement (.orReg x y) := of_row rfl (by decide) ((nibbles_mask ..).trans (by decide))
theorem andReg (x : Reg) (y : Reg) : Statement (.andReg x y) := of_row rfl (by decide) ((nibbles_mask ..).trans (by decide))
theorem xorReg (x : Reg) (y : Reg) : Statement (.xorReg x y) := of_row rfl (by decide) ((nibbles_mask ..).trans (by decide))
theorem addReg (x : Reg) (y : Reg) : Statement (.addReg x y) := of_row rfl (by decide) ((nibbles_mask ..).trans (by decide))
theorem sub (x : Reg) (y : Reg) : Statement (.sub x y) := of_row rfl (by decide) ((nibbles_mask ..).trans (by decide))
theorem shr (x : Reg) (y : Reg) : Statement (.shr x y) := of_row rfl (by decide) ((nibbles_mask ..).trans (by decide))
theorem subn (x : Reg) (y : Reg) : Statement (.subn x y) := of_row rfl (by decide) ((nibbles_mask ..).trans (by decide))
theorem shl (x : Reg) (y : Reg) : Statement (.shl x y) := of_row rfl (by decide) ((nibbles_mask ..).trans (by decide))
theorem sneReg (x : Reg) (y : Reg) : Statement (.sneReg x y) := of_row rfl (by decide) ((nibbles_mask ..).trans (by decide))
theorem ldI (nnn : Addr) : Statement (.ldI nnn) := of_row rfl (by decide) ((formatA_mask ..).trans (by decide))
theorem jpV (nnn : Addr) : Statement (.jpV nnn) := of_row rfl (by decide) ((formatA_mask ..).trans (by decide))
theorem rnd (x : Reg) (kk : Byte) : Statement (.rnd x kk) := of_row rfl (by decide) ((formatXK_mask ..).trans (by decide))
theorem drw (x : Reg) (y : Reg) (n : Nibble) : Statement (.drw x y n) := of_row rfl (by decide) ((nibbles_mask_first ..).trans (by decide))
theorem skp (x : Reg) : Statement (.skp x) := of_row rfl (by decide) ((formatX_mask ..).trans (by decide))
theorem sknp (x : Reg) : Statement (.sknp x) := of_row rfl (by decide) ((formatX_mask ..).trans (by decide))
theorem ldVxDt (x : Reg) : Statement (.ldVxDt x) := of_row rfl (by decide) ((formatX_mask ..).trans (by decide))
theorem ldVxK (x : Reg) : Statement (.ldVxK x) := of_row rfl (by decide) ((formatX_mask ..).trans (by decide))
theorem ldDtVx (x : Reg) : Statement (.ldDtVx x) := of_row rfl (by decide) ((formatX_mask ..).trans (by decide))
theorem ldStVx (x : Reg) : Statement (.ldStVx x) := of_row rfl (by decide) ((formatX_mask ..).trans (by decide))
theorem addI (x : Reg) : Statement (.addI x) := of_row rfl (by decide) ((formatX_mask ..).trans (by decide))
theorem ldF (x : Reg) : Statement (.ldF x) := of_row rfl (by decide) ((formatX_mask ..).trans (by decide))
theorem ldB (x : Reg) : Statement (.ldB x) := of_row rfl (by decide) ((formatX_mask ..).trans (by decide))
theorem stRegs (x : Reg) : Statement (.stRegs x) := of_row rfl (by decide) ((formatX_mask ..).trans (by decide))
theorem ldRegs (x : Reg) : Statement (.ldRegs x) := of_row rfl (by decide) ((formatX_mask ..).trans (by decide))
theorem invalid (w : Word) : Statement (.invalid w) := fun _ h => by simp [Instr.row] at h

end Sys2Proof.Laws.EncodeRow
end

