-- ==== Sys2Proof/Tests/Slice0.lean ====
section
/-!
SUPPORT. Tests: what WellFormed refuses, one written-out word per constructor, the spec's own vectors (95_test_vectors.md, the
row named in each comment), and a witness for the hypotheses of each statement. Expected results come from spec/.
-/

namespace Sys2Proof.Tests

open Sys2Proof.Machine Sys2Proof.Safety

/-! ## States to test on -/

/-- A core with the fontset at 0x50 and every mode flag off. -/
def base : State := State.construct 0x50 { shift := false, jump := false, index := false }

/-- The core after a host's ROM load at 0x200. -/
def loaded (bytes : List Byte) : State := base.writeRun 0x200 bytes

/-- A field of the state an execution leaves. -/
def after {α : Type} (f : State → α) : Result → Option α
  | .next s => some (f s)
  | .fault _ => none
  | .refused _ => none

/-! ## Well-formedness -/

/-- INVALID may not carry a word of the opcode map: 00E0 is CLS. -/
theorem test_invalid_00E0_ill_formed : ¬ WellFormed (.invalid 0x00E0#16) := by decide
theorem test_invalid_8014_ill_formed : ¬ WellFormed (.invalid 0x8014#16) := by decide
theorem test_invalid_F165_ill_formed : ¬ WellFormed (.invalid 0xF165#16) := by decide
theorem test_invalid_0000_well_formed : WellFormed (.invalid 0x0000#16) := by decide

/-! ## One word per constructor, written out from 30_encoding R75 -/

theorem test_decode_cls : decodeWord 0x00E0#16 = .cls := by decide
theorem test_decode_ret : decodeWord 0x00EE#16 = .ret := by decide
theorem test_decode_jp : decodeWord 0x1ABC#16 = .jp 0xABC#12 := by decide
theorem test_decode_call : decodeWord 0x2210#16 = .call 0x210#12 := by decide
theorem test_decode_seByte : decodeWord 0x3310#16 = .seByte 3#4 0x10#8 := by decide
theorem test_decode_sneByte : decodeWord 0x4AFE#16 = .sneByte 0xA#4 0xFE#8 := by decide
theorem test_decode_seReg : decodeWord 0x5120#16 = .seReg 1#4 2#4 := by decide
theorem test_decode_ldByte : decodeWord 0x6A42#16 = .ldByte 0xA#4 0x42#8 := by decide
theorem test_decode_addByte : decodeWord 0x70FF#16 = .addByte 0#4 0xFF#8 := by decide
theorem test_decode_ldReg : decodeWord 0x8120#16 = .ldReg 1#4 2#4 := by decide
theorem test_decode_orReg : decodeWord 0x8121#16 = .orReg 1#4 2#4 := by decide
theorem test_decode_andReg : decodeWord 0x8122#16 = .andReg 1#4 2#4 := by decide
theorem test_decode_xorReg : decodeWord 0x8123#16 = .xorReg 1#4 2#4 := by decide
theorem test_decode_addReg : decodeWord 0x8F14#16 = .addReg 0xF#4 1#4 := by decide
theorem test_decode_sub : decodeWord 0x8125#16 = .sub 1#4 2#4 := by decide
theorem test_decode_shr : decodeWord 0x80F6#16 = .shr 0#4 0xF#4 := by decide
theorem test_decode_subn : decodeWord 0x8127#16 = .subn 1#4 2#4 := by decide
theorem test_decode_shl : decodeWord 0x823E#16 = .shl 2#4 3#4 := by decide
theorem test_decode_sneReg : decodeWord 0x9120#16 = .sneReg 1#4 2#4 := by decide
theorem test_decode_ldI : decodeWord 0xA2F0#16 = .ldI 0x2F0#12 := by decide
theorem test_decode_jpV : decodeWord 0xB20A#16 = .jpV 0x20A#12 := by decide
theorem test_decode_rnd : decodeWord 0xC30F#16 = .rnd 3#4 0x0F#8 := by decide
theorem test_decode_drw : decodeWord 0xD125#16 = .drw 1#4 2#4 5#4 := by decide
theorem test_decode_skp : decodeWord 0xE19E#16 = .skp 1#4 := by decide
theorem test_decode_sknp : decodeWord 0xE1A1#16 = .sknp 1#4 := by decide
theorem test_decode_ldVxDt : decodeWord 0xF307#16 = .ldVxDt 3#4 := by decide
theorem test_decode_ldVxK : decodeWord 0xF50A#16 = .ldVxK 5#4 := by decide
theorem test_decode_ldDtVx : decodeWord 0xF315#16 = .ldDtVx 3#4 := by decide
theorem test_decode_ldStVx : decodeWord 0xF418#16 = .ldStVx 4#4 := by decide
theorem test_decode_addI : decodeWord 0xF51E#16 = .addI 5#4 := by decide
theorem test_decode_ldF : decodeWord 0xF029#16 = .ldF 0#4 := by decide
theorem test_decode_ldB : decodeWord 0xF033#16 = .ldB 0#4 := by decide
theorem test_decode_stRegs : decodeWord 0xF155#16 = .stRegs 1#4 := by decide
theorem test_decode_ldRegs : decodeWord 0xF265#16 = .ldRegs 2#4 := by decide
theorem test_decode_invalid : decodeWord 0x0123#16 = .invalid 0x0123#16 := by decide
/-- T4: words one nibble away from a pattern. -/
theorem test_decode_off_pattern : decodeWord 0x8008#16 = .invalid 0x8008#16 ∧ decodeWord 0x800F#16 = .invalid 0x800F#16 ∧
    decodeWord 0xE000#16 = .invalid 0xE000#16 ∧ decodeWord 0xF0FF#16 = .invalid 0xF0FF#16 ∧
    decodeWord 0x00E1#16 = .invalid 0x00E1#16 ∧ decodeWord 0x5121#16 = .invalid 0x5121#16 := by decide
/-- The table's number for 12 34 in memory is 0x1234: high byte first. -/
theorem test_decode_table_word : decodeTableWord 16 0x1234 = some (.jp 0x234#12) := by decide
theorem test_decode_truncated : decode [0x12#8] = .error .truncated := by decide

/-! ## The step (T1, T2, T5, T6, T8) -/

theorem test_step_fetches_big_endian : after State.pc (step (loaded [0x12#8, 0x34#8])) = some 0x234#16 := by decide
theorem test_step_unloaded : after (fun t => (t.pc, t.dt, t.st, t.outcome)) (step { base with dt := 3#8, st := 1#8 }) =
    some (0x202#16, 2#8, 0#8, .error .invalidOpcode) := by decide
theorem test_step_last_word : after State.pc (step ((base.setPc 0xFFE#16).writeRun 0xFFE [0x12#8, 0x00#8])) =
    some 0x200#16 := by decide
theorem test_step_past_end : after (fun t => (t.pc, t.dt, t.outcome)) (step { base with pc := 0xFFF#16, dt := 4#8 }) =
    some (0xFFF#16, 4#8, .error .memoryOutOfBounds) := by decide
theorem test_step_odd_pc : after (fun t => (t.reg 0#4, t.pc)) (step ((base.setPc 0x201#16).writeRun 0x201 [0x60#8, 0x07#8])) =
    some (7#8, 0x203#16) := by decide
/-- The first step after reset with a word placed is that word's instruction, whatever the parameters of construction. -/
theorem test_reset_runs_placed_word : after (fun t => (t.reg 0xA#4, t.pc)) (step (State.reset.withFetchWord 16 0x6A42)) =
    some (0x42#8, 0x202#16) := by decide

/-! ## Control flow (CF3 to CF19) -/

theorem test_call : after (fun t => (t.stack[0], t.sp.val, t.pc)) (exec (.call 0x210#12) (base.setPc 0x206#16)) =
    some (0x206#16, 1, 0x210#16) := by decide
theorem test_call_full : after (fun t => (t.pc, t.sp.val, t.outcome)) (exec (.call 0x210#12) { base with sp := 16, pc := 0x206#16 }) =
    some (0x206#16, 16, .error .stackOverflow) := by decide
theorem test_ret : after (fun t => (t.pc, t.sp.val, t.stack[0])) (exec .ret { base with sp := 1, stack := base.stack.set 0 0x206#16 }) =
    some (0x206#16, 0, 0x206#16) := by decide
theorem test_ret_empty : after (fun t => (t.pc, t.outcome)) (exec .ret (base.setPc 0x214#16)) =
    some (0x214#16, .error .stackEmpty) := by decide
theorem test_jp : after State.pc (exec (.jp 0xABC#12) base) = some 0xABC#16 := by decide
theorem test_seByte : after State.pc (exec (.seByte 3#4 0x10#8) ((base.setReg 3#4 0x10#8).setPc 0x202#16)) =
    some 0x204#16 := by decide
theorem test_seByte_past_end : after State.pc (exec (.seByte 0#4 0#8) (base.setPc 0xFFE#16)) = some 0x1000#16 := by decide
theorem test_sneByte : after State.pc (exec (.sneByte 3#4 0x10#8) ((base.setReg 3#4 0x10#8).setPc 0x202#16)) =
    some 0x202#16 := by decide
theorem test_seReg : after State.pc (exec (.seReg 1#4 1#4) (base.setPc 0x202#16)) = some 0x204#16 := by decide
theorem test_sneReg : after State.pc (exec (.sneReg 1#4 2#4) (((base.setReg 1#4 7#8).setReg 2#4 8#8).setPc 0x202#16)) =
    some 0x204#16 := by decide
theorem test_jpV_vip : after State.pc (exec (.jpV 0x20A#12) ((base.setReg 0#4 4#8).setReg 2#4 0x10#8)) =
    some 0x20E#16 := by decide
theorem test_jpV_modern : after State.pc (exec (.jpV 0x20A#12) (toggleJump ((base.setReg 0#4 4#8).setReg 2#4 0x10#8))) =
    some 0x21A#16 := by decide

/-! ## Arithmetic and logic (AL1 to AL31) -/

theorem test_ldByte : after (State.reg · 0xA#4) (exec (.ldByte 0xA#4 0x42#8) base) = some 0x42#8 := by decide
theorem test_addByte_no_flag : after (fun t => (t.reg 0#4, t.reg vf)) (exec (.addByte 0#4 2#8) ((base.setReg 0#4 0xFF#8).setReg vf 0x5A#8)) =
    some (0x01#8, 0x5A#8) := by decide
theorem test_ldReg : after (State.reg · 0#4) (exec (.ldReg 0#4 1#4) (base.setReg 1#4 9#8)) = some 9#8 := by decide
theorem test_orReg : after (fun t => (t.reg 0#4, t.reg vf)) (exec (.orReg 0#4 1#4) (((base.setReg 0#4 0x0F#8).setReg 1#4 0xF0#8).setReg vf 7#8)) =
    some (0xFF#8, 7#8) := by decide
theorem test_andReg : after (State.reg · 0#4) (exec (.andReg 0#4 1#4) ((base.setReg 0#4 0x3C#8).setReg 1#4 0x0F#8)) =
    some 0x0C#8 := by decide
theorem test_xorReg : after (State.reg · 0#4) (exec (.xorReg 0#4 1#4) ((base.setReg 0#4 0xFF#8).setReg 1#4 0x0F#8)) =
    some 0xF0#8 := by decide
/-- S6: the carry is not clobbered by VF as destination. -/
theorem test_addReg_vf : after (State.reg · vf) (exec (.addReg vf 1#4) ((base.setReg vf 0xFF#8).setReg 1#4 1#8)) = some 1#8 := by decide
theorem test_addReg : after (fun t => (t.reg 0#4, t.reg vf)) (exec (.addReg 0#4 vf) ((base.setReg 0#4 0x10#8).setReg vf 0xF0#8)) =
    some (0x00#8, 1#8) := by decide
theorem test_sub_borrow : after (fun t => (t.reg 0#4, t.reg vf)) (exec (.sub 0#4 1#4) ((base.setReg 0#4 5#8).setReg 1#4 6#8)) =
    some (0xFF#8, 0#8) := by decide
theorem test_sub_equal : after (fun t => (t.reg 0#4, t.reg vf)) (exec (.sub 0#4 1#4) ((base.setReg 0#4 6#8).setReg 1#4 6#8)) =
    some (0x00#8, 1#8) := by decide
theorem test_subn : after (fun t => (t.reg 0#4, t.reg vf)) (exec (.subn 0#4 1#4) ((base.setReg 0#4 6#8).setReg 1#4 5#8)) =
    some (0xFF#8, 0#8) := by decide
/-- S7, shift flag off. -/
theorem test_shr_modern : after (fun t => (t.reg 0#4, t.reg vf)) (exec (.shr 0#4 1#4) ((base.setReg 0#4 3#8).setReg 1#4 4#8)) =
    some (1#8, 1#8) := by decide
/-- S7, shift flag on. -/
theorem test_shr_vip : after (fun t => (t.reg 0#4, t.reg vf)) (exec (.shr 0#4 1#4) (toggleShift ((base.setReg 0#4 3#8).setReg 1#4 4#8))) =
    some (2#8, 0#8) := by decide
theorem test_shl_modern : after (fun t => (t.reg 2#4, t.reg vf)) (exec (.shl 2#4 0#4) (base.setReg 2#4 0x81#8)) =
    some (0x02#8, 1#8) := by decide
theorem test_shl_vip : after (fun t => (t.reg 2#4, t.reg vf)) (exec (.shl 2#4 3#4) (toggleShift (base.setReg 3#4 0x80#8))) =
    some (0x00#8, 1#8) := by decide
/-- AL31: whatever the draw, the mask 0 leaves 0. -/
theorem test_rnd_zero_mask : after (State.reg · 3#4) (exec (.rnd 3#4 0#8) (base.setReg 3#4 9#8)) = some 0#8 := by
  simp [exec, execRnd, succeed, after, State.reg, State.setReg]

/-! ## Index and memory (M1 to M21) -/

theorem test_ldI : after State.regI (exec (.ldI 0x2F0#12) base) = some 0x2F0#16 := by decide
theorem test_addI_no_mask : after (fun t => (t.regI, t.reg vf)) (exec (.addI 5#4) ((base.setReg 5#4 1#8).setI 0x0FFF#16)) =
    some (0x1000#16, 0#8) := by decide
theorem test_addI_wraps : after State.regI (exec (.addI 5#4) ((base.setReg 5#4 2#8).setI 0xFFFF#16)) = some 0x0001#16 := by decide
theorem test_ldF : after State.regI (exec (.ldF 0#4) (base.setReg 0#4 0x0A#8)) = some 0x82#16 := by decide
theorem test_ldF_not_masked : after State.regI (exec (.ldF 0#4) (base.setReg 0#4 0xFF#8)) = some (BitVec.ofNat 16 (0x50 + 1275)) := by decide
theorem test_ldB : after (fun t => t.readRun 0x300 3) (exec (.ldB 0#4) ((base.setReg 0#4 254#8).setI 0x300#16)) =
    some [2#8, 5#8, 4#8] := by decide
theorem test_ldB_bound : after State.outcome (exec (.ldB 0#4) (base.setI 0xFFE#16)) = some (.error .memoryOutOfBounds) := by decide
theorem test_stRegs_index : after (fun t => (t.readRun 0x400 2, t.regI)) (exec (.stRegs 1#4) (toggleIndex (((base.setReg 0#4 1#8).setReg 1#4 2#8).setI 0x400#16))) =
    some ([1#8, 2#8], 0x402#16) := by decide
theorem test_stRegs_bound : after (fun t => (t.outcome, t.mem, t.regI)) (exec (.stRegs vf) (base.setI 0xFF1#16)) =
    some (.error .memoryOutOfBounds, [], 0xFF1#16) := by decide
theorem test_ldRegs : after (fun t => (t.reg 0#4, t.reg 1#4, t.reg 2#4, t.regI)) (exec (.ldRegs 2#4) ((base.writeRun 0x300 [2#8, 5#8, 4#8]).setI 0x300#16)) =
    some (2#8, 5#8, 4#8, 0x300#16) := by decide
theorem test_ldRegs_no_wrap : after State.outcome (exec (.ldRegs 0#4) (base.setI 0xFFFF#16)) = some (.error .memoryOutOfBounds) := by decide

/-! ## Display (DR1, DR5 to DR10) -/

theorem test_cls : after (fun t => t.fb.pixel 63 31) (exec .cls (base.setFb (base.fb.setPixel 63 31 true))) = some false := by decide
/-- DR8: origins past the screen wrap. -/
theorem test_drw_wraps : after (fun t => (t.fb.pixel 0 0, t.fb.pixel 1 0, t.reg vf)) (exec (.drw 0#4 1#4 1#4) (((base.setReg 0#4 0x40#8).setReg 1#4 0x20#8).setI 0x300#16 |>.writeByte 0x300 0x80#8)) =
    some (true, false, 0#8) := by decide
/-- DR9: erasing the one lit pixel is a collision. -/
theorem test_drw_collision : after (fun t => (t.fb.pixel 1 0, t.reg vf)) (exec (.drw 0#4 1#4 1#4) (((base.setFb (base.fb.setPixel 1 0 true)).setI 0x300#16).writeByte 0x300 0x40#8)) =
    some (false, 1#8) := by decide

/-! ## Keys and timers (K1 to K13) -/

theorem test_skp : after State.pc (exec (.skp 1#4) { base.setReg 1#4 5#8 with keys := 0x0020#16, pc := 0x202#16 }) = some 0x204#16 := by decide
theorem test_skp_released : after State.pc (exec (.skp 1#4) { base.setReg 1#4 5#8 with keys := 0xFFDF#16, pc := 0x202#16 }) = some 0x202#16 := by decide
theorem test_sknp : after State.pc (exec (.sknp 1#4) ((base.setReg 1#4 5#8).setPc 0x202#16)) = some 0x204#16 := by decide
theorem test_ldVxDt_ticked : after (fun t => (t.dt, t.reg 3#4)) (step { loaded [0xF3#8, 0x07#8] with dt := 0x10#8 }) = some (0x0F#8, 0x0F#8) := by decide
theorem test_ldVxK_waits : after (fun t => (t.pc, t.outcome)) (exec (.ldVxK 5#4) (base.setPc 0x208#16)) = some (0x206#16, .success) := by decide
theorem test_ldVxK_lowest : after (State.reg · 5#4) (exec (.ldVxK 5#4) { base with keys := 0x1080#16 }) = some 7#8 := by decide
theorem test_ldDtVx_after_tick : after State.dt (step { (loaded [0xF3#8, 0x15#8]).setReg 3#4 5#8 with dt := 9#8 }) = some 5#8 := by decide
theorem test_ldStVx : after State.st (exec (.ldStVx 4#4) (base.setReg 4#4 0x20#8)) = some 0x20#8 := by decide

/-! ## The fontset and the host (20_memory R53, RS2) -/

theorem test_glyph_F : base.readRun (0x50 + 75) 5 = [0xF0#8, 0x80#8, 0xF0#8, 0x80#8, 0x80#8] := by decide
theorem test_font_length : font.length = 80 := by decide
theorem test_load_rom : (loadRom [0x00#8, 0xE0#8] base).2.readRun 0x200 2 = [0x00#8, 0xE0#8] := by decide
/-- Writing back what an unlisted byte reads as removes the entry. -/
theorem test_memory_canonical : ((base.writeByte 0x300 7#8).writeByte 0x300 0#8).mem = [] := by decide

/-! ## Witnesses: each statement's hypotheses are met, at the boundary of their ranges -/

theorem witness_DecodeOfEncode : WellFormed (.invalid 0xFFFF#16) ∧ WellFormed (.drw vf vf 0xF#4) := by decide
theorem witness_OpcodeRowsDisjoint : (0xF00F#16, 0x8004#16) ∈ opcodeMap ∧ matchesRow 0x8FF4#16 (0xF00F#16, 0x8004#16) = true := by decide
theorem witness_StepRunsDecodedInstruction :
    let s := (base.setPc 0xFFE#16).writeRun 0xFFE [0x12#8, 0x00#8]
    s.pc.toNat ≤ 0xFFE ∧ decode [s.readByte s.pc.toNat, s.readByte (s.pc.toNat + 1)] = .ok (.jp 0x200#12, []) ∧
      WellFormed (.jp 0x200#12) := by decide
theorem witness_FetchPastEndChangesNothing : 0xFFE < (base.setPc 0xFFF#16).pc.toNat := by decide
theorem witness_TimersTickEveryStep :
    decodeWord (loaded [0xF3#8, 0x15#8]).fetch16 = .ldDtVx 3#4 ∧ decodeWord (loaded [0xF4#8, 0x18#8]).fetch16 = .ldStVx 4#4 ∧
    decodeWord (loaded [0xF3#8, 0x07#8]).fetch16 = .ldVxDt 3#4 ∧ (loaded []).pc.toNat ≤ 0xFFE := by decide
theorem witness_TimersTickEveryStep_other : ∀ x, decodeWord base.fetch16 ≠ .ldDtVx x ∧ decodeWord base.fetch16 ≠ .ldStVx x := by decide
theorem witness_InvalidReportsInvalidOpcode : isInvalidWord 0xF066#16 = true ∧ base.pc.toNat ≤ 0xFFE ∧
    isInvalidWord base.fetch16 = true := by decide
theorem witness_CallPushesReturnAddress : ({ base with sp := 15 } : State).sp.val < 16 := by decide
theorem witness_RetPopsReturnAddress : 0 < ({ base with sp := 1 } : State).sp.val ∧ 0 < ({ base with sp := 16 } : State).sp.val := by decide
theorem witness_StackErrorsWriteNothing : ({ base with sp := 16 } : State).sp.val = 16 ∧ base.sp.val = 0 := by decide

/-- CALL 0x210 at 0x200 and RET at 0x210. -/
def callRet : State := (loaded [0x22#8, 0x10#8]).writeRun 0x210 [0x00#8, 0xEE#8]

theorem witness_CallRetRoundTrip : ∃ t u : State,
    callRet.sp.val < 16 ∧ callRet.pc.toNat ≤ 0xFFE ∧ decodeWord callRet.fetch16 = .call 0x210#12 ∧ step callRet = .next t ∧
    u.sp = t.sp ∧ (∀ (j : Nat) (hj : j < 16), j < t.sp.val → u.stack[j] = t.stack[j]) ∧ u.pc.toNat ≤ 0xFFE ∧
    decodeWord u.fetch16 = .ret :=
  ⟨_, _, by decide, by decide, by decide, rfl, rfl, fun _ _ _ => rfl, by decide, by decide⟩

theorem witness_AddAndSubtractSetFlag : (0xE#4 : Reg) ≠ vf := by decide
theorem witness_ShiftsSetFlag : (0#4 : Reg) ≠ vf ∧
    0x81 = (if base.modes.shift then base.reg 1#4 else (base.setReg 0#4 0x81#8).reg 0#4).toNat := by decide
theorem witness_FlagWinsWhenDestinationIsVf : 0 = (if base.modes.shift then base.reg 1#4 else base.reg vf).toNat := by decide
theorem witness_BcdStoresDigits : (base.setI 0xFFD#16).regI.toNat + 3 ≤ 4096 := by decide
theorem witness_StoreRegistersCopiesToMemory : (base.setI 0xFF0#16).regI.toNat + (vf : Reg).toNat + 1 ≤ 4096 := by decide
theorem witness_LoadRegistersCopiesFromMemory : (base.setI 0xFFF#16).regI.toNat + (0#4 : Reg).toNat + 1 ≤ 4096 := by decide
theorem witness_OutOfBoundsWritesNothing : 4096 < (base.setI 0x1001#16).regI.toNat + (0#4 : Nibble).toNat ∧
    4096 < (base.setI 0xFFE#16).regI.toNat + 3 ∧ 4096 < (base.setI 0xFF1#16).regI.toNat + (vf : Reg).toNat + 1 := by decide
theorem witness_FetchSeesStoredRegisters : (base.setI 0xFFE#16).regI.toNat + (1#4 : Reg).toNat + 1 ≤ 4096 ∧
    (base.setI 0xFFE#16).regI.toNat + (0#4 : Reg).toNat + 1 ≤ 4096 ∧ (base.setI 0xFFE#16).regI.toNat ≤ 0xFFE := by decide
theorem witness_DrawXorsSprite : (base.setI 0xFFB#16).regI.toNat + (5#4 : Nibble).toNat ≤ 4096 ∧
    (base.setI 0x1000#16).regI.toNat + (0#4 : Nibble).toNat ≤ 4096 := by decide
theorem witness_DrawTwiceRestoresScreen : (1#4 : Reg) ≠ vf ∧ (2#4 : Reg) ≠ vf ∧ base.regI.toNat + (5#4 : Nibble).toNat ≤ 4096 ∧
    base.fb = Screen.blank := ⟨by decide, by decide, by decide, rfl⟩
theorem witness_KeySkipsReadKey : ((base.setReg 1#4 15#8).reg 1#4).toNat < 16 ∧ ¬ ((base.setReg 1#4 16#8).reg 1#4).toNat < 16 := by decide
theorem witness_ReadDelayTimer : (loaded [0xF3#8, 0x07#8]).pc.toNat ≤ 0xFFE ∧ decodeWord (loaded [0xF3#8, 0x07#8]).fetch16 = .ldVxDt 3#4 := by decide
theorem witness_KeyWaitPolls : base.keys = 0#16 ∧ (loaded [0xF5#8, 0x0A#8]).pc.toNat ≤ 0xFFE ∧
    decodeWord (loaded [0xF5#8, 0x0A#8]).fetch16 = .ldVxK 5#4 ∧ (loaded [0xF5#8, 0x0A#8]).keys = 0#16 := by decide
theorem witness_KeyWaitPolls_pressed : 15 < 16 ∧ (0x8000#16 : Word).getLsbD 15 = true ∧
    (∀ j, j < 15 → (0x8000#16 : Word).getLsbD j = false) := by decide
/-- FX15 at 0x200, then FX07; FX18 at 0x200, then a CLS. -/
theorem witness_WriteTimers :
    (∃ t, step (loaded [0xF3#8, 0x15#8, 0xF4#8, 0x07#8]) = .next t ∧ t.pc.toNat ≤ 0xFFE ∧
      decodeWord t.fetch16 = .ldVxDt 4#4 ∧ ∀ y, decodeWord t.fetch16 ≠ .ldDtVx y) ∧
    (∃ t, step (loaded [0xF4#8, 0x18#8, 0x00#8, 0xE0#8]) = .next t ∧ t.pc.toNat ≤ 0xFFE ∧
      ∀ y, decodeWord t.fetch16 ≠ .ldStVx y) ∧
    decodeWord (loaded [0xF3#8, 0x15#8, 0xF4#8, 0x07#8]).fetch16 = .ldDtVx 3#4 ∧
    decodeWord (loaded [0xF4#8, 0x18#8, 0x00#8, 0xE0#8]).fetch16 = .ldStVx 4#4 ∧ base.pc.toNat ≤ 0xFFE :=
  ⟨⟨_, rfl, by decide, by decide, by decide⟩, ⟨_, rfl, by decide, by decide⟩, by decide, by decide, by decide⟩
theorem witness_InstructionsWriteOnlyTheirOwn : ∃ t, exec (.stRegs vf) base = .next t := ⟨_, rfl⟩
theorem witness_OnlyCallAndRetTouchStack : (∃ t, exec .cls base = .next t) ∧ (∀ nnn, Instr.cls ≠ .call nnn) ∧ Instr.cls ≠ .ret ∧
    HostEvent.setKey 15 true ≠ .step ∧ ∃ t, (HostEvent.setKey 15 true).apply base = .next t :=
  ⟨⟨_, rfl⟩, by decide, by decide, by decide, ⟨_, rfl⟩⟩
theorem witness_StepsLeaveHostInputs : ∃ t, step (loaded [0x00#8, 0xE0#8]) = .next t := ⟨_, rfl⟩
theorem witness_OutcomesFollowTableOfCauses : ∃ t, exec (.ldB 0#4) (base.setI 0xFFE#16) = .next t := ⟨_, rfl⟩
theorem witness_ErrorStepsWriteNothing : ∃ t, step base = .next t ∧ t.outcome = .error .invalidOpcode := ⟨_, rfl, rfl⟩
theorem witness_ErrorStepsWriteNothing_fetch : ∃ t, step (base.setPc 0xFFF#16) = .next t ∧ t.outcome = .error .memoryOutOfBounds := ⟨_, rfl, rfl⟩
theorem witness_OtherInstructionsIgnoreModes : readsModes (.subn 0#4 1#4) = false := by decide
theorem witness_OtherInstructionsIgnoreDraws : readsDraw (.skp 1#4) (base.setReg 1#4 15#8) = false := by decide
theorem witness_StepKeepsCanonicalMemory : Canonical (loaded [0xF0#8, 0x33#8]) ∧ ∃ t, step (loaded [0xF0#8, 0x33#8]) = .next t :=
  ⟨by decide, _, rfl⟩
theorem witness_RunsKeepCanonicalMemory : Canonical base ∧
    ∃ t, EndsIn [.loadRom [0x00#8, 0xE0#8], .setKey 1 true, .step] base t := ⟨by decide, _, rfl⟩
theorem witness_ConstructionResetsEverything : ∃ (s : State) (glyphs : List (List Byte)),
    s = State.construct 432 { shift := true, jump := true, index := true } ∧
      glyphs = [[0xF0#8, 0x90#8, 0x90#8, 0x90#8, 0xF0#8], [0x20#8, 0x60#8, 0x20#8, 0x20#8, 0x70#8],
        [0xF0#8, 0x10#8, 0xF0#8, 0x80#8, 0xF0#8], [0xF0#8, 0x10#8, 0xF0#8, 0x10#8, 0xF0#8],
        [0x90#8, 0x90#8, 0xF0#8, 0x10#8, 0x10#8], [0xF0#8, 0x80#8, 0xF0#8, 0x10#8, 0xF0#8],
        [0xF0#8, 0x80#8, 0xF0#8, 0x90#8, 0xF0#8], [0xF0#8, 0x10#8, 0x20#8, 0x40#8, 0x40#8],
        [0xF0#8, 0x90#8, 0xF0#8, 0x90#8, 0xF0#8], [0xF0#8, 0x90#8, 0xF0#8, 0x10#8, 0xF0#8],
        [0xF0#8, 0x90#8, 0xF0#8, 0x90#8, 0x90#8], [0xE0#8, 0x90#8, 0xE0#8, 0x90#8, 0xE0#8],
        [0xF0#8, 0x80#8, 0x80#8, 0x80#8, 0xF0#8], [0xE0#8, 0x90#8, 0x90#8, 0x90#8, 0xE0#8],
        [0xF0#8, 0x80#8, 0xF0#8, 0x80#8, 0xF0#8], [0xF0#8, 0x80#8, 0xF0#8, 0x80#8, 0x80#8]] :=
  ⟨_, _, rfl, rfl⟩
theorem witness_RomLoadCopiesOrRefuses : (List.replicate 3584 (0x12#8 : Byte)).length ≤ 3584 ∧
    3584 < (List.replicate 3585 (0x12#8 : Byte)).length := by
  rw [List.length_replicate, List.length_replicate]; decide
theorem witness_SetKeySetsOneBit : 15 < 16 ∧ 16 ≤ 16 ∧ ∃ j, j ≠ 15 ∧ j < 16 := ⟨by decide, by decide, 0, by decide, by decide⟩
theorem witness_HostWritesOnlyInputsAndMemory : HostEvent.loadRom [0x12#8] ≠ .step ∧ ∃ t, (HostEvent.loadRom [0x12#8]).apply base = .next t :=
  ⟨by decide, _, rfl⟩
theorem witness_RunEndsAtFirstError : ∃ t u, EndsIn [.setKey 1 true] base t ∧ step t = .next u ∧ u.outcome = .error .invalidOpcode :=
  ⟨_, _, rfl, rfl, rfl⟩
theorem witness_ModeMutatorWritesModes : base.pc.toNat ≤ 0xFFE ∧ (0#4 : Reg) ≠ vf ∧
    decodeWord (loaded [0xB2#8, 0x0A#8]).fetch16 = .jpV 0x20A#12 ∧ decodeWord (loaded [0x80#8, 0x16#8]).fetch16 = .shr 0#4 1#4 ∧
    decodeWord (loaded [0xF2#8, 0x65#8]).fetch16 = .ldRegs 2#4 ∧
    (loaded [0xF2#8, 0x65#8]).regI.toNat + (2#4 : Reg).toNat + 1 ≤ 4096 ∧
    (base.setI 0xFF0#16).regI.toNat + (vf : Reg).toNat + 1 ≤ 4096 := by decide
theorem witness_AccessorsShowState : ({ base with keys := 0x8000#16 } : State).hostPressed 15 = some true ∧ base.hostPressed 16 = none := by decide

end Sys2Proof.Tests
end

/-! # What an instruction and a host operation write; the call stack (10_state R30) -/

namespace Sys2Proof.Safety

open Sys2Proof.Machine

/-! ## Frames of the remaining updates and of the two ways an instruction ends -/

theorem Frame.of_succeed {w : Writes} {s t u : State} (hf : Frame w s u) (h : succeed u = .next t) : Frame w s t := by
  obtain rfl := (succeed_eq_next u t).1 h
  exact hf.withOutcome .success

theorem Frame.of_raise {w : Writes} {s t : State} {e : Fault} (h : raise e s = .next t) : Frame w s t := by
  obtain rfl := (raise_eq_next e s t).1 h
  exact Frame.outcome w s (.error e)

theorem Frame.skipIf (s : State) (taken : Bool) : Frame { pc := true } s (s.skipIf taken) := Frame.setPc s _

/-- What CALL and RET write: a target, a slot and the count of entries. -/
theorem Frame.setPcStackSp (s : State) (a : Word) (slots : Vector Word 16) (n : Fin 17) :
    Frame { pc := true, stack := true } s { s with pc := a, stack := slots, sp := n } :=
  ⟨fun _ _ => rfl, fun _ => rfl, nofun, nofun, fun _ => rfl, fun _ => rfl, fun _ => rfl, fun _ _ => rfl,
    rfl, rfl, rfl, rfl⟩

theorem Frame.loadRegs (s : State) (x : Reg) :
    Frame { reg := fun j => decide (j.toNat ≤ x.toNat) } s (s.loadRegs x) :=
  ⟨fun j hj => (s.reg_loadRegs x j).trans (if_neg (of_decide_eq_false hj)), fun _ => rfl, fun _ => rfl,
    fun _ => ⟨rfl, rfl⟩, fun _ => rfl, fun _ => rfl, fun _ => rfl, fun _ _ => rfl, rfl, rfl, rfl, rfl⟩

/-- The I that FX55 and FX65 leave is a write only when the index flag says so (10_state R40). -/
theorem Frame.setI_indexAfterCopy {s u : State} (hu : u.regI = s.regI) (x : Reg) :
    Frame { regI := s.modes.index } u (u.setI (s.indexAfterCopy x)) :=
  { Frame.setI u (s.indexAfterCopy x) with
    regI := fun hm => by
      have hm : s.modes.index = false := hm
      simp [State.indexAfterCopy, hm, hu] }

/-! ## Instructions -/

/-- Every ending of every instruction, through the lemma of its ending (Laws/Exec) and the frame of its update. -/
theorem exec_frame {i : Instr} {s t : State} (h : exec i s = .next t) : Frame (mayWrite i s) s t := by
  cases i with
  | cls => exact .of_succeed (.setFb s _) h
  | ret =>
    rcases execRet_cases s with ⟨-, he⟩ | ⟨_, he⟩
    · exact .of_raise (he ▸ h)
    · exact .of_succeed (.setPcStackSp s _ s.stack _) (he ▸ h)
  | call nnn =>
    rcases execCall_cases nnn s with ⟨-, he⟩ | ⟨_, he⟩
    · exact .of_raise (he ▸ h)
    · exact .of_succeed (.setPcStackSp s _ _ _) (he ▸ h)
  | jp | jpV => exact .of_succeed (.setPc s _) h
  | seByte | sneByte | seReg | sneReg | skp | sknp => exact .of_succeed (.skipIf s _) h
  | ldByte x | addByte x | ldReg x | orReg x | andReg x | xorReg x | rnd x | ldVxDt x =>
    exact .of_succeed (.setReg s x _) h
  | addReg x | sub x | shr x | subn x | shl x => exact .of_succeed (.setResultFlag s x _ _) h
  | ldI | addI | ldF => exact .of_succeed (.setI s _) h
  | drw x y n =>
    rcases execDrw_cases x y n s with ⟨-, he⟩ | ⟨-, he⟩
    · exact .of_succeed ((Frame.setFb s _).trans (.setReg _ vf _)) (he ▸ h)
    · exact .of_raise (he ▸ h)
  | ldVxK x =>
    rcases execLdVxK_cases x s with ⟨-, he⟩ | ⟨k, -, -, -, he⟩
    · refine .of_succeed ?_ (he ▸ h)
      exact { Frame.setPc s (s.pc - 2#16) with reg := fun _ _ => rfl }
    · refine .of_succeed ?_ (he ▸ h)
      exact { Frame.setReg s x (BitVec.ofNat 8 k) with pc := nofun }
  | ldDtVx => exact .of_succeed (.setDt s _) h
  | ldStVx => exact .of_succeed (.setSt s _) h
  | ldB x =>
    rcases execLdB_cases x s with ⟨-, he⟩ | ⟨-, he⟩
    · exact .of_succeed (.writeRun s _ (bcd (s.reg x))) (he ▸ h)
    · exact .of_raise (he ▸ h)
  | stRegs x =>
    rcases execStRegs_cases x s with ⟨-, he⟩ | ⟨-, he⟩
    · have hI : (s.writeRun s.regI.toNat (s.regsUpTo x)).regI = s.regI := by rw [State.writeRun_eq]
      have hf := (Frame.writeRun s s.regI.toNat (s.regsUpTo x)).trans (.setI_indexAfterCopy hI x)
      exact .of_succeed (by simpa [mayWrite] using hf) (he ▸ h)
    · exact .of_raise (he ▸ h)
  | ldRegs x =>
    rcases execLdRegs_cases x s with ⟨-, he⟩ | ⟨-, he⟩
    · have hf := (Frame.loadRegs s x).trans (.setI_indexAfterCopy (State.loadRegs_regI s x) x)
      exact .of_succeed (by simpa [mayWrite] using hf) (he ▸ h)
    · exact .of_raise (he ▸ h)
  | invalid => exact .of_raise h

theorem mayWrite_stack_eq_false {i : Instr} (hcall : ∀ nnn, i ≠ .call nnn) (hret : i ≠ .ret) (s : State) :
    (mayWrite i s).stack = false := by
  cases i with
  | call nnn => exact absurd rfl (hcall nnn)
  | ret => exact absurd rfl hret
  | _ => rfl

/-! ## Host operations -/

/-- A host operation other than Step writes KEYS, MODES and memory at most (70_reset R204, R212, R213). -/
theorem hostEvent_apply_cases {e : HostEvent} {s t : State} (he : e ≠ .step) (h : e.apply s = .next t) :
    (∃ keys, t = { s with keys := keys }) ∨ (∃ m, t = setModes m s) ∨ t = s ∨
      ∃ bytes, t = s.writeRun Config.progStart bytes := by
  cases e with
  | step => exact absurd rfl he
  | setKey k pressed =>
    simp only [HostEvent.apply, Machine.setKey] at h
    split at h
    · exact .inl ⟨_, (Host.Outcome.next.inj h).symm⟩
    · exact nomatch h
  | setModes m => exact .inr (.inl ⟨m, (Host.Outcome.next.inj h).symm⟩)
  | loadRom bytes =>
    simp only [HostEvent.apply, Machine.loadRom] at h
    split at h
    · exact .inr (.inr (.inr ⟨bytes, (Host.Outcome.next.inj h).symm⟩))
    · exact .inr (.inr (.inl (Host.Outcome.next.inj h).symm))

theorem hostEvent_apply_keeps_stack {e : HostEvent} {s t : State} (he : e ≠ .step) (h : e.apply s = .next t) :
    t.stack = s.stack ∧ t.sp = s.sp := by
  rcases hostEvent_apply_cases he h with ⟨keys, rfl⟩ | ⟨m, rfl⟩ | rfl | ⟨bytes, rfl⟩
  · exact ⟨rfl, rfl⟩
  · exact ⟨setModes_stack m s, setModes_sp m s⟩
  · exact ⟨rfl, rfl⟩
  · exact (Frame.writeRun s Config.progStart bytes).stack rfl

/-! ## The obligation -/

/-- Settles O44: an instruction's frame leaves the stack out unless it is CALL or RET, and no host operation reaches it. -/
theorem onlyCallAndRetTouchStack : Obligations.OnlyCallAndRetTouchStack :=
  ⟨fun _ s _ h hcall hret => (exec_frame h).stack (mayWrite_stack_eq_false hcall hret s),
    fun _ _ _ he h => hostEvent_apply_keeps_stack he h,
    fun _ => ⟨rfl, rfl⟩⟩

end Sys2Proof.Safety

/-! # What a fetch reads (20_memory R55) -/

namespace Sys2Proof.Safety

open Sys2Proof.Machine

/-- Settles O7: the fetched word is the word of the two bytes at PC, whose value is known for any two bytes. -/
theorem fetchIsBigEndian : Obligations.FetchIsBigEndian :=
  fun s => wordOfBytes_toNat (s.readByte s.pc.toNat) (s.readByte (s.pc.toNat + 1))

end Sys2Proof.Safety

/-! # Jumps and skips on a byte (41_control_flow R102, R104, R105, R108) -/

namespace Sys2Proof

/-! ## The words of the jumps and of the skips on a byte (30_encoding R75) -/

theorem decodeWord_jp (nnn : Addr) : decodeWord (formatA 0x1#4 nnn) = .jp nnn := by simp [decodeWord]

theorem decodeWord_jpV (nnn : Addr) : decodeWord (formatA 0xB#4 nnn) = .jpV nnn := by simp [decodeWord]

theorem decodeWord_seByte (x : Reg) (kk : Byte) : decodeWord (formatXK 0x3#4 x kk) = .seByte x kk := by
  simp [decodeWord]

theorem decodeWord_sneByte (x : Reg) (kk : Byte) : decodeWord (formatXK 0x4#4 x kk) = .sneByte x kk := by
  simp [decodeWord]

end Sys2Proof

namespace Sys2Proof.Machine

/-! ## Where BNNN jumps -/

/-- The operand x of BXNN is the second nibble, nnn[11:8]. -/
theorem jumpOffset_eq (s : State) (nnn : Addr) :
    s.jumpOffset nnn = if s.modes.jump then s.reg (BitVec.ofNat 4 (nnn.toNat / 256)) else s.reg 0#4 := by
  have hx : nnn.extractLsb' 8 4 = BitVec.ofNat 4 (nnn.toNat / 256) :=
    BitVec.eq_of_toNat_eq (by simp [Nat.shiftRight_eq_div_pow])
  simp only [State.jumpOffset, hx]

theorem zext16_toNat (nnn : Addr) : (zext16 nnn).toNat = nnn.toNat :=
  BitVec.toNat_setWidth_of_le (by decide)

/-- A 12-bit address plus a byte does not reach 2^16, so the sum is not truncated. -/
theorem zext16_add_byte_toNat (nnn : Addr) (b : Byte) :
    (zext16 nnn + b.setWidth 16).toNat = nnn.toNat + b.toNat := by
  have := nnn.isLt
  have := b.isLt
  rw [BitVec.toNat_add, zext16_toNat, BitVec.toNat_setWidth_of_le (by decide)]
  omega

end Sys2Proof.Machine

namespace Sys2Proof.Safety

open Sys2Proof.Machine

/-- A successful ending keeps the PC and the frame of the update before it. -/
theorem succeed_pc_frame {w : Writes} {s u : State} {n : Nat} (hpc : u.pc.toNat = n) (hf : Frame w s u) :
    ∃ t, succeed u = .next t ∧ t.outcome = .success ∧ t.pc.toNat = n ∧ Frame w s t :=
  ⟨_, rfl, rfl, hpc, hf.withOutcome .success⟩

/-! ## The obligations -/

/-- Settles O13: JP is one write of PC, to the zero-extended address. -/
theorem jumpSetsPc : Obligations.JumpSetsPc :=
  fun nnn s => ⟨decodeWord_jp nnn, succeed_pc_frame (zext16_toNat nnn) (.setPc s (zext16 nnn))⟩

/-- Settles O14: both skips are `State.skipIf`, SNE with the negated comparison. -/
theorem byteSkipsCompare : Obligations.ByteSkipsCompare := by
  intro x kk s
  refine ⟨decodeWord_seByte x kk, decodeWord_sneByte x kk,
    succeed_pc_frame ?_ (.skipIf s (s.reg x == kk)), succeed_pc_frame ?_ (.skipIf s (s.reg x != kk))⟩
  · exact (s.skipIf_pc_toNat _).trans (by simp)
  · exact (s.skipIf_pc_toNat _).trans (by simp)

/-- Settles O16: the jump flag chooses the register, and the 16-bit sum is exact. -/
theorem computedJumpAddsRegister : Obligations.ComputedJumpAddsRegister := by
  intro nnn s
  refine ⟨decodeWord_jpV nnn, succeed_pc_frame ?_ (.setPc s _)⟩
  rw [← jumpOffset_eq]
  exact zext16_add_byte_toNat nnn (s.jumpOffset nnn)

end Sys2Proof.Safety

/-! # Loads, the byte add, and the logic operations (42_alu R120 to R125) -/

namespace Sys2Proof

/-! ## Their words (30_encoding R75) -/

theorem decodeWord_ldByte (x : Reg) (kk : Byte) : decodeWord (formatXK 0x6#4 x kk) = .ldByte x kk := by
  simp [decodeWord]

theorem decodeWord_addByte (x : Reg) (kk : Byte) : decodeWord (formatXK 0x7#4 x kk) = .addByte x kk := by
  simp [decodeWord]

theorem decodeWord_ldReg (x y : Reg) : decodeWord (nibbles 0x8#4 x y 0x0#4) = .ldReg x y := by simp [decodeWord]

theorem decodeWord_orReg (x y : Reg) : decodeWord (nibbles 0x8#4 x y 0x1#4) = .orReg x y := by simp [decodeWord]

theorem decodeWord_andReg (x y : Reg) : decodeWord (nibbles 0x8#4 x y 0x2#4) = .andReg x y := by simp [decodeWord]

theorem decodeWord_xorReg (x y : Reg) : decodeWord (nibbles 0x8#4 x y 0x3#4) = .xorReg x y := by simp [decodeWord]

end Sys2Proof

namespace Sys2Proof.Safety

open Sys2Proof.Machine

/-! ## A successful write of one register -/

/-- The register reads as the byte written, x = F included, and nothing else changes. -/
theorem succeed_setReg_frame (s : State) (x : Reg) (b : Byte) :
    ∃ t, succeed (s.setReg x b) = .next t ∧ t.outcome = .success ∧ t.reg x = b ∧ Frame { reg := only x } s t :=
  ⟨_, rfl, rfl, s.reg_setReg_self x b, (Frame.setReg s x b).withOutcome .success⟩

/-- `succeed_setReg_frame` for a byte known by its bits. -/
theorem succeed_setReg_bits_frame (s : State) (x : Reg) {b : Byte} {bit : Nat → Bool} (hb : ∀ k, b.getLsbD k = bit k) :
    ∃ t, succeed (s.setReg x b) = .next t ∧ t.outcome = .success ∧ (∀ k, (t.reg x).getLsbD k = bit k) ∧
      Frame { reg := only x } s t := by
  obtain ⟨t, ht, hout, hreg, hframe⟩ := succeed_setReg_frame s x b
  exact ⟨t, ht, hout, hreg ▸ hb, hframe⟩

/-! ## The obligations -/

/-- Settles O21: LD Vx, kk is one register write. -/
theorem loadByteSetsRegister : Obligations.LoadByteSetsRegister :=
  fun x kk s => ⟨decodeWord_ldByte x kk, succeed_setReg_frame s x kk⟩

/-- Settles O22: ADD Vx, kk is one register write, of the 8-bit sum. -/
theorem addByteWraps : Obligations.AddByteWraps := by
  intro x kk s
  obtain ⟨t, ht, hout, hreg, hframe⟩ := succeed_setReg_frame s x (s.reg x + kk)
  exact ⟨decodeWord_addByte x kk, t, ht, hout, by rw [hreg, BitVec.toNat_add], hframe⟩

/-- Settles O23: each is one register write, of V[y] or of the bitwise result. -/
theorem copyAndLogicSetRegister : Obligations.CopyAndLogicSetRegister :=
  fun x y s => ⟨decodeWord_ldReg x y, decodeWord_orReg x y, decodeWord_andReg x y, decodeWord_xorReg x y,
    succeed_setReg_frame s x (s.reg y),
    succeed_setReg_bits_frame s x fun _ => BitVec.getLsbD_or,
    succeed_setReg_bits_frame s x fun _ => BitVec.getLsbD_and,
    succeed_setReg_bits_frame s x fun _ => BitVec.getLsbD_xor⟩

end Sys2Proof.Safety

/-! # Loads of I (43_index_memory R140, R142) -/

namespace Sys2Proof

/-! ## Their words (30_encoding R75) -/

theorem decodeWord_ldI (nnn : Addr) : decodeWord (formatA 0xA#4 nnn) = .ldI nnn := by simp [decodeWord]

theorem decodeWord_ldF (x : Reg) : decodeWord (formatXK 0xF#4 x 0x29#8) = .ldF x := by simp [decodeWord]

end Sys2Proof

namespace Sys2Proof.Machine

/-- The highest glyph address, 432 + 5 * 255, is below 2^16, so the sum is not truncated. -/
theorem glyphAddress_toNat (fontBase : FontBase) (v : Byte) :
    (glyphAddress fontBase v).toNat = fontBase.val + 5 * v.toNat := by
  have := fontBase.isLt
  have := v.isLt
  rw [glyphAddress, BitVec.toNat_ofNat]
  omega

end Sys2Proof.Machine

namespace Sys2Proof.Safety

open Sys2Proof.Machine

/-! ## A successful write of I -/

/-- I reads as the word written, and nothing else changes. -/
theorem succeed_setI_frame (s : State) {a : Word} {n : Nat} (ha : a.toNat = n) :
    ∃ t, succeed (s.setI a) = .next t ∧ t.outcome = .success ∧ t.regI.toNat = n ∧ Frame { regI := true } s t :=
  ⟨_, rfl, rfl, ha, (Frame.setI s a).withOutcome .success⟩

/-! ## The obligations -/

/-- Settles O28: LD I, nnn is one write of I, of the zero-extended address. -/
theorem loadIndexSetsI : Obligations.LoadIndexSetsI :=
  fun nnn s => ⟨decodeWord_ldI nnn, succeed_setI_frame s (zext16_toNat nnn)⟩

/-- Settles O30: LD F, Vx is one write of I, of the glyph address, which is exact for every V[x]. -/
theorem glyphAddressIsFiveTimesDigit : Obligations.GlyphAddressIsFiveTimesDigit :=
  fun x s => ⟨decodeWord_ldF x, succeed_setI_frame s (glyphAddress_toNat s.fontBase (s.reg x))⟩

end Sys2Proof.Safety

/-! # Clearing the screen (44_display R160) -/

namespace Sys2Proof

theorem decodeWord_cls : decodeWord 0x00E0#16 = .cls := by decide

end Sys2Proof

namespace Sys2Proof.Machine

/-- A cell on the screen is its pixel: no coordinate wraps. -/
theorem Screen.getElem_eq_pixel (fb : Screen) (x y : Nat) (hx : x < 64) (hy : y < 32) : fb[y][x] = fb.pixel x y := by
  simp only [Screen.pixel, Nat.mod_eq_of_lt hx, Nat.mod_eq_of_lt hy]

end Sys2Proof.Machine

namespace Sys2Proof.Safety

open Sys2Proof.Machine

/-- A successful ending keeps the framebuffer written, and nothing else changes. -/
theorem succeed_setFb_frame (s : State) (fb : Screen) :
    ∃ t, succeed (s.setFb fb) = .next t ∧ t.outcome = .success ∧ t.fb = fb ∧ Frame { fb := true } s t :=
  ⟨_, rfl, rfl, rfl, (Frame.setFb s fb).withOutcome .success⟩

/-- Settles O36: CLS is one write of the framebuffer, of the blank screen, whatever stood there. -/
theorem clearScreenBlanksEveryCell : Obligations.ClearScreenBlanksEveryCell := by
  refine ⟨decodeWord_cls, fun s => ?_⟩
  obtain ⟨t, ht, hout, hfb, hframe⟩ := succeed_setFb_frame s Screen.blank
  refine ⟨t, ht, hout, fun x y hx hy => ?_, hframe⟩
  rw [Screen.getElem_eq_pixel, hfb, Screen.pixel_blank]

end Sys2Proof.Safety

/-! # Timers and the key wait (45_timers_keys R172 to R175) -/

namespace Sys2Proof

/-! ## Their words (30_encoding R75) -/

theorem decodeWord_ldVxDt (x : Reg) : decodeWord (formatXK 0xF#4 x 0x07#8) = .ldVxDt x := by simp [decodeWord]

theorem decodeWord_ldVxK (x : Reg) : decodeWord (formatXK 0xF#4 x 0x0A#8) = .ldVxK x := by simp [decodeWord]

theorem decodeWord_ldDtVx (x : Reg) : decodeWord (formatXK 0xF#4 x 0x15#8) = .ldDtVx x := by simp [decodeWord]

theorem decodeWord_ldStVx (x : Reg) : decodeWord (formatXK 0xF#4 x 0x18#8) = .ldStVx x := by simp [decodeWord]

end Sys2Proof

namespace Sys2Proof.Machine

/-! ## Every instruction and every step has a next state (40_step R92) -/

theorem exec_eq_next (i : Instr) (s : State) : ∃ t, exec i s = .next t := by
  cases i with
  | ret => rcases execRet_cases s with ⟨-, he⟩ | ⟨_, he⟩ <;> exact ⟨_, he⟩
  | call nnn => rcases execCall_cases nnn s with ⟨-, he⟩ | ⟨_, he⟩ <;> exact ⟨_, he⟩
  | drw x y n => rcases execDrw_cases x y n s with ⟨-, he⟩ | ⟨-, he⟩ <;> exact ⟨_, he⟩
  | ldVxK x => rcases execLdVxK_cases x s with ⟨-, he⟩ | ⟨_, -, -, -, he⟩ <;> exact ⟨_, he⟩
  | ldB x => rcases execLdB_cases x s with ⟨-, he⟩ | ⟨-, he⟩ <;> exact ⟨_, he⟩
  | stRegs x => rcases execStRegs_cases x s with ⟨-, he⟩ | ⟨-, he⟩ <;> exact ⟨_, he⟩
  | ldRegs x => rcases execLdRegs_cases x s with ⟨-, he⟩ | ⟨-, he⟩ <;> exact ⟨_, he⟩
  | _ => exact ⟨_, rfl⟩

theorem step_eq_next (s : State) : ∃ t, step s = .next t := by
  rcases step_cases s with ⟨-, he⟩ | ⟨-, he⟩
  · obtain ⟨t, ht⟩ := exec_eq_next (decodeWord s.fetch16) s.advance
    exact ⟨t, he.trans ht⟩
  · exact ⟨_, he⟩

theorem step_eq_exec {i : Instr} {s : State} (hpc : s.pc.toNat ≤ 0xFFE) (hi : decodeWord s.fetch16 = i) :
    step s = exec i s.advance := by
  rcases step_cases s with ⟨-, he⟩ | ⟨hpast, -⟩
  · exact hi ▸ he
  · omega

/-- A fetch reads nothing but PC and memory. -/
theorem State.fetch16_congr {s t : State} (hpc : t.pc = s.pc) (hmem : ∀ a, t.readByte a = s.readByte a) :
    t.fetch16 = s.fetch16 := by
  simp only [State.fetch16, hpc, hmem]

/-! ## The two endings of FX0A, by their conditions -/

theorem exec_ldVxK_of_no_key (x : Reg) {s : State} (hkeys : s.keys = 0#16) :
    exec (.ldVxK x) s = succeed (s.setPc (s.pc - 2#16)) := by
  rcases execLdVxK_cases x s with ⟨-, he⟩ | ⟨k, -, hk, -, -⟩
  · exact he
  · simp [hkeys] at hk

/-- The lowest pressed key is unique: of two different ones the lower would refute the other. -/
theorem exec_ldVxK_of_lowest_key (x : Reg) {s : State} {k : Nat} (hk : s.keys.getLsbD k = true)
    (hlow : ∀ j < k, s.keys.getLsbD j = false) : exec (.ldVxK x) s = succeed (s.setReg x (BitVec.ofNat 8 k)) := by
  rcases execLdVxK_cases x s with ⟨hzero, -⟩ | ⟨k', -, hk', hlow', he⟩
  · simp [hzero] at hk
  · have hle : k ≤ k' := Nat.le_of_not_lt fun hlt => by simp [hlow k' hlt] at hk'
    have hge : k' ≤ k := Nat.le_of_not_lt fun hlt => by simp [hlow' k hlt] at hk
    rwa [Nat.le_antisymm hle hge]

end Sys2Proof.Machine

namespace Sys2Proof.Safety

open Sys2Proof.Machine

/-! ## A successful write of a timer -/

theorem succeed_setDt_frame (s : State) (b : Byte) :
    ∃ t, succeed (s.setDt b) = .next t ∧ t.outcome = .success ∧ t.dt = b ∧ Frame { dt := true } s t :=
  ⟨_, rfl, rfl, rfl, (Frame.setDt s b).withOutcome .success⟩

theorem succeed_setSt_frame (s : State) (b : Byte) :
    ∃ t, succeed (s.setSt b) = .next t ∧ t.outcome = .success ∧ t.st = b ∧ Frame { st := true } s t :=
  ⟨_, rfl, rfl, rfl, (Frame.setSt s b).withOutcome .success⟩

/-! ## What a step does to the timers (40_step R90, R91) -/

theorem mayWrite_dt_eq_false {i : Instr} (hi : ∀ x, i ≠ .ldDtVx x) (s : State) : (mayWrite i s).dt = false := by
  cases i with
  | ldDtVx x => exact absurd rfl (hi x)
  | _ => rfl

theorem mayWrite_st_eq_false {i : Instr} (hi : ∀ x, i ≠ .ldStVx x) (s : State) : (mayWrite i s).st = false := by
  cases i with
  | ldStVx x => exact absurd rfl (hi x)
  | _ => rfl

section
variable {s t : State} (hpc : s.pc.toNat ≤ 0xFFE) (h : step s = .next t)
include hpc h

theorem step_frame : Frame (mayWrite (decodeWord s.fetch16) s.advance) s.advance t :=
  exec_frame ((step_eq_exec hpc rfl).symm.trans h)

theorem step_ticks_dt (hi : ∀ x, decodeWord s.fetch16 ≠ .ldDtVx x) : t.dt.toNat = s.dt.toNat - 1 := by
  rw [(step_frame hpc h).dt (mayWrite_dt_eq_false hi _), State.advance_dt, tick_toNat]

theorem step_ticks_st (hi : ∀ x, decodeWord s.fetch16 ≠ .ldStVx x) : t.st.toNat = s.st.toNat - 1 := by
  rw [(step_frame hpc h).st (mayWrite_st_eq_false hi _), State.advance_st, tick_toNat]

/-- FX07 copies the ticked timer, which it leaves as it is. -/
theorem step_ldVxDt {x : Reg} (hi : decodeWord s.fetch16 = .ldVxDt x) :
    (t.reg x).toNat = s.dt.toNat - 1 ∧ t.dt = t.reg x := by
  obtain ⟨u, hu, -, hreg, hframe⟩ := succeed_setReg_frame s.advance x s.advance.dt
  obtain rfl : t = u := Host.Outcome.next.inj (h.symm.trans ((step_eq_exec hpc hi).trans hu))
  exact ⟨by rw [hreg, State.advance_dt, tick_toNat], (hframe.dt rfl).trans hreg.symm⟩

end

/-! ## The key wait -/

theorem exec_ldVxK_wait_frame (x : Reg) {s : State} (hkeys : s.keys = 0#16) :
    ∃ t, exec (.ldVxK x) s = .next t ∧ t.outcome = .success ∧ t.pc = s.pc - 2#16 ∧ Frame { pc := true } s t :=
  ⟨_, exec_ldVxK_of_no_key x hkeys, rfl, rfl, (Frame.setPc s _).withOutcome .success⟩

/-- The PC moved back is the PC before the step's advance, so the next fetch reads the same word. -/
theorem step_ldVxK_wait {x : Reg} {s : State} (hkeys : s.keys = 0#16) (hpc : s.pc.toNat ≤ 0xFFE)
    (hi : decodeWord s.fetch16 = .ldVxK x) :
    ∃ t, step s = .next t ∧ t.outcome = .success ∧ t.pc = s.pc ∧ t.fetch16 = s.fetch16 ∧ (∀ j, t.reg j = s.reg j) ∧
      t.dt.toNat = s.dt.toNat - 1 ∧ t.st.toNat = s.st.toNat - 1 := by
  obtain ⟨t, hexec, hout, hback, hframe⟩ := exec_ldVxK_wait_frame x (s := s.advance) hkeys
  have hstep : step s = .next t := (step_eq_exec hpc hi).trans hexec
  have hsame : t.pc = s.pc := hback.trans (BitVec.add_sub_cancel s.pc 2#16)
  exact ⟨t, hstep, hout, hsame, State.fetch16_congr hsame fun a => hframe.mem a rfl, fun j => hframe.reg j rfl,
    step_ticks_dt hpc hstep (by simp [hi]), step_ticks_st hpc hstep (by simp [hi])⟩

/-! ## The obligations -/

/-- Settles O40: FX07 is one register write; across the step the byte written is the ticked timer. -/
theorem readDelayTimer : Obligations.ReadDelayTimer := by
  intro x s
  refine ⟨decodeWord_ldVxDt x, succeed_setReg_frame s x s.dt, fun hpc hi => ?_⟩
  obtain ⟨t, hstep⟩ := step_eq_next s
  exact ⟨t, hstep, step_ldVxDt hpc hstep hi⟩

/-- Settles O41: KEYS = 0 selects the ending that moves PC back, a lowest pressed key the one that writes V[x]. -/
theorem keyWaitPolls : Obligations.KeyWaitPolls := by
  intro x s
  refine ⟨decodeWord_ldVxK x, exec_ldVxK_wait_frame x, fun k hk hpressed hlow => ?_, step_ldVxK_wait⟩
  obtain ⟨t, ht, hout, hreg, hframe⟩ := succeed_setReg_frame s x (BitVec.ofNat 8 k)
  refine ⟨t, (exec_ldVxK_of_lowest_key x hpressed hlow).trans ht, hout, ?_, hframe⟩
  rw [hreg, BitVec.toNat_ofNat]
  omega

/-- Settles O42: each is one timer write, made after the tick; the next step ticks the value written, by the lemmas of any
step that does not write it, and FX07 reads it ticked. -/
theorem writeTimers : Obligations.WriteTimers := by
  intro x s
  refine ⟨decodeWord_ldDtVx x, decodeWord_ldStVx x, succeed_setDt_frame s (s.reg x), succeed_setSt_frame s (s.reg x),
    fun hpc hi => ?_, fun hpc hi => ?_⟩
  · obtain ⟨t, ht, -, hdt, -⟩ := succeed_setDt_frame s.advance (s.reg x)
    refine ⟨t, (step_eq_exec hpc hi).trans ht, hdt, fun hpc' => ?_⟩
    obtain ⟨u, hstep⟩ := step_eq_next t
    exact ⟨u, hstep, fun y hy => hdt ▸ (step_ldVxDt hpc' hstep hy).1, fun hne => hdt ▸ step_ticks_dt hpc' hstep hne⟩
  · obtain ⟨t, ht, -, hst, -⟩ := succeed_setSt_frame s.advance (s.reg x)
    refine ⟨t, (step_eq_exec hpc hi).trans ht, hst, fun hpc' => ?_⟩
    obtain ⟨u, hstep⟩ := step_eq_next t
    exact ⟨u, hstep, fun hne => hst ▸ step_ticks_st hpc' hstep hne⟩

end Sys2Proof.Safety

/-! # SetKey (70_reset R212) -/

namespace Sys2Proof.Machine

/-- KEYS with the bit of key `k` as asked. -/
def keysWith (keys : Word) (k : Nat) (pressed : Bool) : Word :=
  if pressed then keys ||| BitVec.twoPow 16 k else keys &&& ~~~BitVec.twoPow 16 k

/-- Setting the bit is an OR with the key's mask, clearing it an AND with the mask's complement. -/
theorem getLsbD_keysWith (keys : Word) (pressed : Bool) {k j : Nat} (hk : k < 16) :
    (keysWith keys k pressed).getLsbD j = if j = k then pressed else keys.getLsbD j := by
  have hmask : (BitVec.twoPow 16 k).getLsbD j = decide (k = j) := by simp [BitVec.getLsbD_twoPow, hk]
  rcases eq_or_ne j k with rfl | hj
  · cases pressed <;> simp [keysWith, hmask]
  · cases pressed with
    | true => simp [keysWith, hmask, hj, hj.symm]
    | false =>
      have hin : keys.getLsbD j = true → j < 16 := BitVec.lt_of_getLsbD
      simpa [keysWith, hmask, hj, hj.symm] using hin

theorem setKey_of_lt {k : Nat} (hk : k < 16) (pressed : Bool) (s : State) :
    setKey k pressed s = .next { s with keys := keysWith s.keys k pressed } := if_pos hk

theorem setKey_of_le {k : Nat} (hk : 16 ≤ k) (pressed : Bool) (s : State) :
    setKey k pressed s = .refused (.keyOutOfRange k) := if_neg (Nat.not_lt.2 hk)

end Sys2Proof.Machine

namespace Sys2Proof.Safety

open Sys2Proof.Machine

/-- Settles O55: below 16 SetKey is one write of KEYS, whose bits are known one by one; from 16 up it refuses. -/
theorem setKeySetsOneBit : Obligations.SetKeySetsOneBit := by
  intro k pressed s
  refine ⟨fun hk => ⟨_, setKey_of_lt hk pressed s, ?_, fun j hj => ?_, rfl⟩, fun hk => setKey_of_le hk pressed s⟩
  · exact (getLsbD_keysWith s.keys pressed hk).trans (if_pos rfl)
  · exact (getLsbD_keysWith s.keys pressed hk).trans (if_neg hj)

end Sys2Proof.Safety

/-! # The decoder, the encoder and the opcode map (30_encoding R74 to R77) -/

namespace Sys2Proof.Laws.EncodeRow

/-- The lemmas of Laws/PerInstr as one, for any instruction. -/
theorem statement : ∀ i : Instr, Statement i
  | .cls => cls
  | .ret => ret
  | .jp nnn => jp nnn
  | .call nnn => call nnn
  | .seByte x kk => seByte x kk
  | .sneByte x kk => sneByte x kk
  | .seReg x y => seReg x y
  | .ldByte x kk => ldByte x kk
  | .addByte x kk => addByte x kk
  | .ldReg x y => ldReg x y
  | .orReg x y => orReg x y
  | .andReg x y => andReg x y
  | .xorReg x y => xorReg x y
  | .addReg x y => addReg x y
  | .sub x y => sub x y
  | .shr x y => shr x y
  | .subn x y => subn x y
  | .shl x y => shl x y
  | .sneReg x y => sneReg x y
  | .ldI nnn => ldI nnn
  | .jpV nnn => jpV nnn
  | .rnd x kk => rnd x kk
  | .drw x y n => drw x y n
  | .skp x => skp x
  | .sknp x => sknp x
  | .ldVxDt x => ldVxDt x
  | .ldVxK x => ldVxK x
  | .ldDtVx x => ldDtVx x
  | .ldStVx x => ldStVx x
  | .addI x => addI x
  | .ldF x => ldF x
  | .ldB x => ldB x
  | .stRegs x => stRegs x
  | .ldRegs x => ldRegs x
  | .invalid w => invalid w

end Sys2Proof.Laws.EncodeRow

namespace Sys2Proof

/-! ## A word from the fields the decoder has checked -/

section
variable {w : Word} {a n : Nibble} {kk : Byte} (hq : (msq w).toNat = a.toNat)
include hq

theorem formatA_of_fields : formatA a (fieldNNN w) = w := by
  rw [← BitVec.eq_of_toNat_eq hq]
  exact (eq_formatA w).symm

theorem formatXK_of_fields (hk : (fieldKK w).toNat = kk.toNat) : formatXK a (fieldX w) kk = w := by
  rw [← BitVec.eq_of_toNat_eq hq, ← BitVec.eq_of_toNat_eq hk]
  exact (eq_formatXK w).symm

theorem nibbles_of_fields (hn : (fieldN w).toNat = n.toNat) : nibbles a (fieldX w) (fieldY w) n = w := by
  rw [← BitVec.eq_of_toNat_eq hq, ← BitVec.eq_of_toNat_eq hn]
  exact (eq_nibbles w).symm

end

theorem and_low_nibble_toNat (w : Word) : (w &&& 0x000F#16).toNat = (fieldN w).toNat := by
  rw [and_low_nibble, BitVec.toNat_setWidth_of_le (by decide)]

theorem and_low_byte_toNat (w : Word) : (w &&& 0x00FF#16).toNat = (fieldKK w).toNat := by
  rw [and_low_byte, BitVec.toNat_setWidth_of_le (by decide)]

/-! ## Every arm of the decoder -/

/-- Arm by arm: CLS and RET are one word each, the other instructions are what their format puts together from the fields
the decoder has checked and copied, and INVALID keeps the word. -/
theorem encode_decodeWord (w : Word) : encode (decodeWord w) = w := by
  fun_cases decodeWord w
  case case1 hw | case2 hw => exact BitVec.eq_of_toNat_eq hw.symm
  -- formats O and A: JP, CALL, LD I, JP V0
  case case4 hq | case5 hq | case24 hq | case25 hq => exact formatA_of_fields hq
  -- format XK, the byte an operand
  case case6 hq | case7 hq | case10 hq | case11 hq | case26 hq => exact formatXK_of_fields hq rfl
  -- DRW, the low nibble an operand
  case case27 hq => exact nibbles_of_fields hq rfl
  -- families 5, 8 and 9, the low nibble fixed
  case case8 hq hn | case12 hq hn | case13 hq hn | case14 hq hn | case15 hq hn | case16 hq hn | case17 hq hn |
      case18 hq hn | case19 hq hn | case20 hq hn | case22 hq hn => exact nibbles_of_fields hq hn
  -- families E and F, the low byte fixed
  case case28 hq hk | case29 hq hk | case31 hq hk | case32 hq hk | case33 hq hk | case34 hq hk | case35 hq hk |
      case36 hq hk | case37 hq hk | case38 hq hk | case39 hq hk => exact formatXK_of_fields hq hk
  -- INVALID
  all_goals rfl

/-- The six arms that answer INVALID are reached by the six classes of 30_encoding R77; there is no seventeenth family. -/
theorem wellFormed_decodeWord (w : Word) : WellFormed (decodeWord w) := by
  have hn := (fieldN w).isLt
  have hq := (msq w).isLt
  fun_cases decodeWord w
  case case3 | case9 | case21 | case23 | case30 | case40 =>
    simp +zetaDelta only [imp_false] at *
    simp [WellFormed, Instr.wellFormed, isInvalidWord, shiftRight_toNat, ← BitVec.toNat_inj, and_low_nibble_toNat,
      and_low_byte_toNat, -BitVec.toNat_and,
      -BitVec.toNat_ushiftRight, *] <;> omega
  case case41 =>
    simp only [imp_false] at *
    omega
  all_goals rfl

/-! ## The bits a row fixes -/

/-- The mask of the rows of a word's family: the bits that decide which row the word matches. -/
def fixedBits (w : Word) : Word :=
  match (msq w).toNat with
  | 0x0 => 0xFFFF#16
  | 0x5 | 0x8 | 0x9 => 0xF00F#16
  | 0xE | 0xF => 0xF0FF#16
  | _ => 0xF000#16

theorem fixedBits_congr {w v : Word} (h : msq w = msq v) : fixedBits w = fixedBits v := by
  simp only [fixedBits, h]

theorem msq_and_of_top {m : Word} (hm : msq m = 0xF#4) (w : Word) : msq (w &&& m) = msq w := by
  have hand : msq (w &&& m) = msq w &&& msq m := BitVec.extractLsb'_and
  rw [hand, hm]
  exact BitVec.and_allOnes

/-- Whether a word is illegal depends on its fixed bits alone. -/
theorem isInvalidWord_and_fixedBits (w : Word) : isInvalidWord (w &&& fixedBits w) = isInvalidWord w := by
  have hfull : w &&& 0xFFFF#16 = w := BitVec.and_allOnes
  have hn : msq (w &&& 0xF00F#16) = msq w := msq_and_of_top (by decide) w
  have hkk : msq (w &&& 0xF0FF#16) = msq w := msq_and_of_top (by decide) w
  have hq : msq (w &&& 0xF000#16) = msq w := msq_and_of_top (by decide) w
  unfold fixedBits
  split <;> simp [isInvalidWord, shiftRight_toNat, BitVec.and_assoc, -BitVec.toNat_ushiftRight, *]

/-! ## The rows of the opcode map (30_encoding R75) -/

/-- Row by row: the mask is the fixed bits of the match, the family nibble among them, and the match is a legal word. -/
theorem opcodeMap_row {row : Word × Word} (hrow : row ∈ opcodeMap) :
    row.1 = fixedBits row.2 ∧ msq row.1 = 0xF#4 ∧ isInvalidWord row.2 = false := by
  have hall : opcodeMap.all (fun r => r.1 == fixedBits r.2 && (msq r.1 == 0xF#4 && !isInvalidWord r.2)) = true := rfl
  simpa using List.all_eq_true.1 hall row hrow

/-- The map is in the order of its match words, so no row stands twice. -/
theorem opcodeMap_nodup : opcodeMap.Nodup := by
  have hrise : opcodeMap.IsChain (fun r r' => r.2.toNat < r'.2.toNat) := by decide
  exact (List.isChain_iff_pairwise.1 hrise).imp fun {r r'} (hlt : r.2.toNat < r'.2.toNat) (he : r = r') =>
    Nat.lt_irrefl _ (he ▸ hlt)

section
variable {w : Word} {row : Word × Word} (hrow : row ∈ opcodeMap) (hm : matchesRow w row = true)
include hrow hm

/-- A matching row is the one the word's own fixed bits spell. -/
theorem row_eq_of_matchesRow : row = (fixedBits w, w &&& fixedBits w) := by
  obtain ⟨hmatch, htop, -⟩ := opcodeMap_row hrow
  have hbits : w &&& row.1 = row.2 := beq_iff_eq.1 hm
  have hfamily : msq row.2 = msq w := hbits ▸ msq_and_of_top htop w
  have hmask : row.1 = fixedBits w := hmatch.trans (fixedBits_congr hfamily)
  exact Prod.ext hmask (hmask ▸ hbits.symm)

theorem isInvalidWord_of_matchesRow : isInvalidWord w = false := by
  obtain ⟨-, -, hlegal⟩ := opcodeMap_row hrow
  rwa [row_eq_of_matchesRow hrow hm, isInvalidWord_and_fixedBits] at hlegal

end

/-! ## The decoder's answer and the opcode map -/

theorem Instr.row_eq_none {i : Instr} (h : i.row = none) : ∃ w, i = .invalid w := by
  cases i with
  | invalid w => exact ⟨w, rfl⟩
  | _ => exact nomatch h

/-- The decoded instruction's row is in the map and the word matches it. -/
theorem matchesRow_of_row_decodeWord {w : Word} {row : Word × Word} (h : (decodeWord w).row = some row) :
    row ∈ opcodeMap ∧ matchesRow w row = true := by
  obtain ⟨hrow, hbits⟩ := Laws.EncodeRow.statement (decodeWord w) row h
  rw [encode_decodeWord] at hbits
  exact ⟨hrow, beq_iff_eq.2 hbits⟩

theorem row_decodeWord_eq_none_iff (w : Word) : (decodeWord w).row = none ↔ decodeWord w = .invalid w := by
  refine ⟨fun h => ?_, fun h => h ▸ rfl⟩
  obtain ⟨v, hv⟩ := Instr.row_eq_none h
  have hvw : v = w := by simpa [hv, encode] using encode_decodeWord w
  rw [hv, hvw]

/-- An illegal word matches no row, so its decoded instruction has none. -/
theorem decodeWord_eq_invalid_iff (w : Word) : decodeWord w = .invalid w ↔ isInvalidWord w = true := by
  constructor
  · intro h
    simpa [h, WellFormed, Instr.wellFormed] using wellFormed_decodeWord w
  · intro hinv
    rw [← row_decodeWord_eq_none_iff, Option.eq_none_iff_forall_ne_some]
    intro row h
    obtain ⟨hrow, hm⟩ := matchesRow_of_row_decodeWord h
    simp [isInvalidWord_of_matchesRow hrow hm] at hinv

/-- A word that matches a row is not illegal, so its decoded instruction has a row, and a word matches one row only. -/
theorem row_decodeWord_of_matchesRow {w : Word} {row : Word × Word} (hrow : row ∈ opcodeMap)
    (hm : matchesRow w row = true) : (decodeWord w).row = some row := by
  cases h : (decodeWord w).row with
  | none =>
    have hinv := (decodeWord_eq_invalid_iff w).1 ((row_decodeWord_eq_none_iff w).1 h)
    simp [isInvalidWord_of_matchesRow hrow hm] at hinv
  | some row' =>
    obtain ⟨hrow', hm'⟩ := matchesRow_of_row_decodeWord h
    rw [row_eq_of_matchesRow hrow hm, row_eq_of_matchesRow hrow' hm']

/-- Every instruction's word has its own nibbles where the decoder looks for them; INVALID's is one of the six classes. -/
theorem decodeWord_encode {i : Instr} (h : WellFormed i) : decodeWord (encode i) = i := by
  cases i with
  | cls => exact decodeWord_cls
  | ret => decide
  | invalid w => exact (decodeWord_eq_invalid_iff w).2 h
  | _ => simp [encode, decodeWord]

end Sys2Proof

namespace Sys2Proof.Safety

/-! ## The obligations -/

/-- Settles O1: each word is evaluated by the decoder. -/
theorem writtenWordsDecode : Obligations.WrittenWordsDecode := by
  unfold Obligations.WrittenWordsDecode
  decide

/-- Settles O2: the two bytes in memory order are the word, and the word decodes to its instruction. -/
theorem decodeOfEncode : Obligations.DecodeOfEncode := by
  intro i rest h
  simp [encodeBytes, decode, decodeWord_encode h]

/-- Settles O3, arm by arm of the decoder. -/
theorem encodeOfDecode : Obligations.EncodeOfDecode :=
  fun w => ⟨wellFormed_decodeWord w, encode_decodeWord w⟩

/-- Settles O4: the decoded instruction's row is the one row the word matches, and INVALID is what has none. -/
theorem decodeFollowsOpcodeMap : Obligations.DecodeFollowsOpcodeMap := by
  intro w
  refine ⟨fun row hrow => ⟨row_decodeWord_of_matchesRow hrow, fun h => (matchesRow_of_row_decodeWord h).2⟩, ?_⟩
  rw [← row_decodeWord_eq_none_iff, Option.eq_none_iff_forall_ne_some]
  constructor
  · intro hno row h
    obtain ⟨hrow, hm⟩ := matchesRow_of_row_decodeWord h
    simp [hno row hrow] at hm
  · intro hnone row hrow
    exact Bool.eq_false_iff.2 fun hm => hnone row (row_decodeWord_of_matchesRow hrow hm)

/-- Settles O5: a matching row is determined by the word. -/
theorem opcodeRowsDisjoint : Obligations.OpcodeRowsDisjoint :=
  ⟨opcodeMap_nodup, rfl, fun _ _ _ hr hr' hm hm' =>
    (row_eq_of_matchesRow hr hm).trans (row_eq_of_matchesRow hr' hm').symm⟩

/-- Settles O6. -/
theorem invalidWordsAreTheSixClasses : Obligations.InvalidWordsAreTheSixClasses := decodeWord_eq_invalid_iff

end Sys2Proof.Safety

/-! # How an instruction ends (60_exceptions R181, R182) and what a step does (40_step R90 to R95) -/

namespace Sys2Proof.Safety

open Sys2Proof.Machine

/-! ## The two endings of an instruction, by the table of causes -/

theorem boundOutcome_of_le {s : State} {n : Nat} (h : s.regI.toNat + n ≤ 4096) : boundOutcome s n = .success :=
  if_neg (Nat.not_lt.2 h)

theorem boundOutcome_of_lt {s : State} {n : Nat} (h : 4096 < s.regI.toNat + n) :
    boundOutcome s n = .error .memoryOutOfBounds := if_pos h

/-- An instruction succeeds from some state, or reports the error of the table of causes from the state it was given. -/
theorem exec_ending (i : Instr) (s : State) :
    (outcomeOf i s = .success ∧ ∃ u, exec i s = succeed u) ∨ ∃ e, outcomeOf i s = .error e ∧ exec i s = raise e s := by
  cases i with
  | ret =>
    rcases execRet_cases s with ⟨h, he⟩ | ⟨h, he⟩
    · exact .inr ⟨_, if_pos h, he⟩
    · exact .inl ⟨if_neg (Nat.pos_iff_ne_zero.1 h), _, he⟩
  | call nnn =>
    rcases execCall_cases nnn s with ⟨h, he⟩ | ⟨h, he⟩
    · exact .inr ⟨_, if_pos h, he⟩
    · exact .inl ⟨if_neg (Nat.ne_of_lt h), _, he⟩
  | drw x y n =>
    rcases execDrw_cases x y n s with ⟨h, he⟩ | ⟨h, he⟩
    · exact .inl ⟨boundOutcome_of_le h, _, he⟩
    · exact .inr ⟨_, boundOutcome_of_lt h, he⟩
  | ldB x =>
    rcases execLdB_cases x s with ⟨h, he⟩ | ⟨h, he⟩
    · exact .inl ⟨boundOutcome_of_le h, _, he⟩
    · exact .inr ⟨_, boundOutcome_of_lt h, he⟩
  | stRegs x =>
    rcases execStRegs_cases x s with ⟨h, he⟩ | ⟨h, he⟩
    · exact .inl ⟨boundOutcome_of_le h, _, he⟩
    · exact .inr ⟨_, boundOutcome_of_lt h, he⟩
  | ldRegs x =>
    rcases execLdRegs_cases x s with ⟨h, he⟩ | ⟨h, he⟩
    · exact .inl ⟨boundOutcome_of_le h, _, he⟩
    · exact .inr ⟨_, boundOutcome_of_lt h, he⟩
  | ldVxK x => rcases execLdVxK_cases x s with ⟨-, he⟩ | ⟨_, -, -, -, he⟩ <;> exact .inl ⟨rfl, _, he⟩
  | invalid => exact .inr ⟨_, rfl, rfl⟩
  | _ => exact .inl ⟨rfl, _, rfl⟩

theorem exec_eq_raise {i : Instr} {s : State} {e : Fault} (h : outcomeOf i s = .error e) : exec i s = raise e s := by
  rcases exec_ending i s with ⟨ho, -⟩ | ⟨e', ho, he⟩
  · exact nomatch h.symm.trans ho
  · obtain rfl : e' = e := StepOutcome.error.inj (ho.symm.trans h)
    exact he

theorem exec_outcome {i : Instr} {s t : State} (h : exec i s = .next t) : t.outcome = outcomeOf i s := by
  rcases exec_ending i s with ⟨ho, u, he⟩ | ⟨e, ho, he⟩
  · obtain rfl := (succeed_eq_next u t).1 (he ▸ h)
    exact ho.symm
  · obtain rfl := (raise_eq_next e s t).1 (he ▸ h)
    exact ho.symm

/-- An error is recorded and nothing else changes. -/
theorem exec_error_frame {i : Instr} {s : State} {e : Fault} (h : outcomeOf i s = .error e) :
    ∃ t, exec i s = .next t ∧ t.outcome = .error e ∧ Frame {} s t :=
  ⟨_, exec_eq_raise h, rfl, Frame.outcome {} s (.error e)⟩

/-! ## Steps -/

theorem step_of_fetch_past_end {s : State} (h : 0xFFE < s.pc.toNat) : step s = raise .memoryOutOfBounds s := by
  rcases step_cases s with ⟨hle, -⟩ | ⟨-, he⟩
  · omega
  · exact he

/-- A timer written by FX15 or FX18 is V[x] at the end of the step: registers are as before the advance. -/
theorem step_ldDtVx {s t : State} {x : Reg} (hpc : s.pc.toNat ≤ 0xFFE) (h : step s = .next t)
    (hi : decodeWord s.fetch16 = .ldDtVx x) : t.dt = s.reg x := by
  obtain ⟨u, hu, -, hdt, -⟩ := succeed_setDt_frame s.advance (s.reg x)
  obtain rfl : t = u := Host.Outcome.next.inj (h.symm.trans ((step_eq_exec hpc hi).trans hu))
  exact hdt

theorem step_ldStVx {s t : State} {x : Reg} (hpc : s.pc.toNat ≤ 0xFFE) (h : step s = .next t)
    (hi : decodeWord s.fetch16 = .ldStVx x) : t.st = s.reg x := by
  obtain ⟨u, hu, -, hst, -⟩ := succeed_setSt_frame s.advance (s.reg x)
  obtain rfl : t = u := Host.Outcome.next.inj (h.symm.trans ((step_eq_exec hpc hi).trans hu))
  exact hst

/-- INVALID's step: its frame is empty, so what is left is the advance. -/
theorem step_invalid {s : State} (hpc : s.pc.toNat ≤ 0xFFE) (hinv : isInvalidWord s.fetch16 = true) :
    ∃ t, step s = .next t ∧ t.outcome = .error .invalidOpcode ∧ Frame {} s.advance t := by
  have hi := (decodeWord_eq_invalid_iff s.fetch16).2 hinv
  rw [step_eq_exec hpc hi]
  exact exec_error_frame rfl

/-! ## The obligations -/

/-- Settles O8: a step that fetches is exec on the advanced state, whose fields the statement writes out. -/
theorem stepRunsDecodedInstruction : Obligations.StepRunsDecodedInstruction := by
  intro s i hpc hdec _
  have hi : decodeWord s.fetch16 = i := congrArg Prod.fst (Except.ok.inj hdec)
  exact step_eq_exec hpc hi

/-- Settles O9. -/
theorem fetchPastEndChangesNothing : Obligations.FetchPastEndChangesNothing :=
  fun _ => step_of_fetch_past_end

/-- Settles O10, by the endings of the instructions. -/
theorem stepIsTotal : Obligations.StepIsTotal := ⟨step_eq_next, exec_eq_next⟩

/-- Settles O11: only FX15 and FX18 may write a timer after the tick, and FX07 copies the ticked DT. -/
theorem timersTickEveryStep : Obligations.TimersTickEveryStep := by
  intro s hpc
  obtain ⟨t, ht⟩ := step_eq_next s
  exact ⟨t, ht, fun _ => step_ldDtVx hpc ht, fun _ => step_ldStVx hpc ht, fun _ hi => (step_ldVxDt hpc ht hi).1,
    step_ticks_dt hpc ht, step_ticks_st hpc ht⟩

/-- Settles O12: INVALID's outcome is an error in every state, so its frame is empty, and so is its step's past the advance. -/
theorem invalidReportsInvalidOpcode : Obligations.InvalidReportsInvalidOpcode := by
  intro w s
  refine ⟨(decodeWord_eq_invalid_iff w).2, exec_error_frame rfl, fun hpc hinv => ?_⟩
  obtain ⟨t, ht, hout, hf⟩ := step_invalid hpc hinv
  exact ⟨t, ht, hout, hf.pc rfl, by rw [hf.dt rfl, State.advance_dt, tick_toNat],
    by rw [hf.st rfl, State.advance_st, tick_toNat], fun j => hf.reg j rfl, fun a => hf.mem a rfl⟩

/-- Settles O19: both are the error of the table of causes. -/
theorem stackErrorsWriteNothing : Obligations.StackErrorsWriteNothing :=
  ⟨fun _ _ h => exec_error_frame (if_pos h), fun _ h => exec_error_frame (if_pos h)⟩

/-- Settles O34: each bound is that of the table of causes. -/
theorem outOfBoundsWritesNothing : Obligations.OutOfBoundsWritesNothing :=
  ⟨fun _ _ _ _ h => exec_error_frame (boundOutcome_of_lt h), fun _ _ h => exec_error_frame (boundOutcome_of_lt h),
    fun _ _ h => ⟨exec_error_frame (boundOutcome_of_lt h), exec_error_frame (boundOutcome_of_lt h)⟩⟩

/-- Settles O43: the frame of every ending of every instruction. -/
theorem instructionsWriteOnlyTheirOwn : Obligations.InstructionsWriteOnlyTheirOwn := fun _ _ _ => exec_frame

/-- Settles O45: no frame lets a host input change, and neither does the advance nor a failed fetch. -/
theorem stepsLeaveHostInputs : Obligations.StepsLeaveHostInputs := by
  intro s t h
  rcases step_cases s with ⟨hpc, -⟩ | ⟨-, he⟩
  · have hf := step_frame hpc h
    exact ⟨hf.keys, hf.modes, hf.fontBase⟩
  · obtain rfl := (raise_eq_next _ s t).1 (he ▸ h)
    exact ⟨rfl, rfl, rfl⟩

/-- Settles O46. -/
theorem outcomesFollowTableOfCauses : Obligations.OutcomesFollowTableOfCauses := fun _ _ _ => exec_outcome

/-- Settles O47: an error is raised from the advanced state, or, when the fetch failed, from the state itself. -/
theorem errorStepsWriteNothing : Obligations.ErrorStepsWriteNothing := by
  intro s t e h hout
  rcases step_cases s with ⟨hpc, he⟩ | ⟨hpc, he⟩
  · have hexec := he.symm.trans h
    have hraise := exec_eq_raise ((exec_outcome hexec).symm.trans hout)
    exact .inl ⟨hpc, ((raise_eq_next e _ t).1 (hraise.symm.trans hexec)).symm⟩
  · obtain rfl := (raise_eq_next _ s t).1 (he ▸ h)
    obtain rfl : Fault.memoryOutOfBounds = e := StepOutcome.error.inj hout
    exact .inr ⟨hpc, rfl, rfl⟩

end Sys2Proof.Safety

/-! # CALL and RET (41_control_flow R101, R103, R109) -/

namespace Sys2Proof.Safety

open Sys2Proof.Machine

/-- Settles O17: the ending of CALL with SP < 16, slot by slot. -/
theorem callPushesReturnAddress : Obligations.CallPushesReturnAddress := by
  intro nnn s h
  refine ⟨decodeWord_encode (i := .call nnn) rfl, ?_⟩
  rcases execCall_cases nnn s with ⟨hfull, -⟩ | ⟨_, he⟩
  · omega
  · exact ⟨_, he, rfl, Vector.getElem_set_self h, fun j hj hne => Vector.getElem_set_ne h hj hne.symm, rfl,
      zext16_toNat nnn, (Frame.setPcStackSp s _ _ _).withOutcome .success⟩

/-- Settles O18: the ending of RET with SP > 0; the slots are not written. -/
theorem retPopsReturnAddress : Obligations.RetPopsReturnAddress := by
  intro s h
  rcases execRet_cases s with ⟨hempty, -⟩ | ⟨_, he⟩
  · omega
  · exact ⟨_, he, rfl, rfl, rfl, rfl, (Frame.setPcStackSp s _ s.stack _).withOutcome .success⟩

/-- Settles O20: the CALL leaves the return address in the slot at the old SP, the code in between keeps it there, and the RET
reads that slot, one below the SP it finds. -/
theorem callRetRoundTrip : Obligations.CallRetRoundTrip := by
  intro s t u nnn h hpc hcall ht husp hlive hupc hret
  obtain ⟨-, t', ht', -, hslot, hothers, hsp, -, -⟩ := callPushesReturnAddress nnn s.advance h
  obtain rfl : t = t' := Host.Outcome.next.inj (ht.symm.trans ((step_eq_exec hpc hcall).trans ht'))
  have husp : u.sp.val = s.sp.val + 1 := (congrArg Fin.val husp).trans hsp
  have hnonempty : 0 < u.advance.sp.val := Nat.lt_of_lt_of_eq (Nat.succ_pos _) husp.symm
  obtain ⟨r, hr, hout, hrpc, hrstack, hrsp, -⟩ := retPopsReturnAddress u.advance hnonempty
  have hret16 : u.stack[s.sp.val] = s.pc + 2#16 := (hlive _ h (hsp ▸ Nat.lt_succ_self _)).trans hslot
  refine ⟨r, (step_eq_exec hupc hret).trans hr, hout, ?_, Fin.ext ?_, fun j hj hlt => ?_, ?_⟩
  · rw [hrpc, ← hret16]
    simp [husp]
  · simp [hrsp, husp]
  · rw [hrstack]
    exact (hlive j hj (by omega)).trans (hothers j hj (Nat.ne_of_lt hlt))
  · rw [hrstack]
    exact hret16

end Sys2Proof.Safety

/-! # Skips on a register and on a key (41_control_flow R106, R107; 45_timers_keys R170, R171) -/

namespace Sys2Proof

/-- Families 5 and 9 fix the low nibble at 0 (30_encoding R77). -/
theorem isInvalidWord_nibbles {a n : Nibble} (ha : a = 0x5#4 ∨ a = 0x9#4) (x y : Reg) (hn : n ≠ 0#4) :
    isInvalidWord (nibbles a x y n) = true := by
  rcases ha with rfl | rfl <;>
    simpa [isInvalidWord, shiftRight_toNat, ← BitVec.toNat_inj, and_low_nibble_toNat, -BitVec.toNat_ushiftRight,
      -BitVec.toNat_and] using hn

/-- 5XYN: only the low nibble 0 is an instruction. -/
theorem decodeWord_family5 (x y : Reg) (n : Nibble) :
    decodeWord (nibbles 0x5#4 x y n) = if n = 0#4 then .seReg x y else .invalid (nibbles 0x5#4 x y n) := by
  split
  next hn => exact hn ▸ decodeWord_encode (i := .seReg x y) rfl
  next hn => exact (decodeWord_eq_invalid_iff _).2 (isInvalidWord_nibbles (.inl rfl) x y hn)

/-- 9XYN: only the low nibble 0 is an instruction. -/
theorem decodeWord_family9 (x y : Reg) (n : Nibble) :
    decodeWord (nibbles 0x9#4 x y n) = if n = 0#4 then .sneReg x y else .invalid (nibbles 0x9#4 x y n) := by
  split
  next hn => exact hn ▸ decodeWord_encode (i := .sneReg x y) rfl
  next hn => exact (decodeWord_eq_invalid_iff _).2 (isInvalidWord_nibbles (.inr rfl) x y hn)

end Sys2Proof

namespace Sys2Proof.Safety

open Sys2Proof.Machine

/-- A skip moves PC by two when it is taken, and writes nothing else. -/
theorem succeed_skipIf_frame (s : State) (taken : Bool) {n : Nat}
    (hn : (if taken then (s.pc.toNat + 2) % 65536 else s.pc.toNat) = n) :
    ∃ t, succeed (s.skipIf taken) = .next t ∧ t.outcome = .success ∧ t.pc.toNat = n ∧ Frame { pc := true } s t :=
  succeed_pc_frame ((s.skipIf_pc_toNat taken).trans hn) (.skipIf s taken)

/-- Settles O15: both are skips, SNE with the negated comparison. -/
theorem registerSkipsCompare : Obligations.RegisterSkipsCompare := fun x y n s =>
  ⟨decodeWord_family5 x y n, decodeWord_family9 x y n,
    succeed_skipIf_frame s (s.reg x == s.reg y) (by simp), succeed_skipIf_frame s (s.reg x != s.reg y) (by simp)⟩

/-- Settles O39: both are skips on the key's state, SKNP with the negated one. -/
theorem keySkipsReadKey : Obligations.KeySkipsReadKey := by
  intro x s p hp
  have hp : s.pressed (s.reg x) = p := hp.symm
  exact ⟨decodeWord_encode (i := .skp x) rfl, decodeWord_encode (i := .sknp x) rfl,
    succeed_skipIf_frame s (s.pressed (s.reg x)) (by rw [hp]),
    succeed_skipIf_frame s (!s.pressed (s.reg x)) (by rw [hp]; cases p <;> rfl)⟩

end Sys2Proof.Safety

/-! # Arithmetic with a flag, the random byte and ADD I (42_alu R126 to R131; 43_index_memory R141) -/

namespace Sys2Proof.Machine

/-! ## The flags as bytes (10_state R43) -/

theorem flagByte_addCarry (a b : Byte) : flagByte (addCarry a b) = if 255 < a.toNat + b.toNat then 1#8 else 0#8 := by
  simp [flagByte, addCarry]

theorem flagByte_notBorrow (a b : Byte) : flagByte (notBorrow a b) = if a.toNat ≥ b.toNat then 1#8 else 0#8 := by
  simp [flagByte, notBorrow]

theorem flagByte_toNat (f : Bool) : (flagByte f).toNat = f.toNat := by cases f <;> rfl

theorem flagByte_lowBit_toNat (a : Byte) : (flagByte (lowBit a)).toNat = a.toNat % 2 := by
  rw [flagByte_toNat, lowBit, BitVec.getLsbD, Nat.toNat_testBit, pow_zero, Nat.div_one]

theorem flagByte_highBit_toNat (a : Byte) : (flagByte (highBit a)).toNat = a.toNat / 128 := by
  have := a.isLt
  rw [flagByte_toNat, highBit, BitVec.getLsbD, Nat.toNat_testBit]
  omega

/-! ## The results modulo 256 -/

theorem byte_sub_toNat (a b : Byte) : (a - b).toNat = (a.toNat + 256 - b.toNat) % 256 := by
  have := b.isLt
  rw [BitVec.toNat_sub]
  omega

theorem byte_shiftRight_toNat (a : Byte) : (a >>> 1).toNat = a.toNat / 2 := by
  rw [BitVec.toNat_ushiftRight, Nat.shiftRight_eq_div_pow, pow_one]

theorem byte_shiftLeft_toNat (a : Byte) : (a <<< 1).toNat = 2 * a.toNat % 256 := by
  rw [BitVec.toNat_shiftLeft, Nat.shiftLeft_eq, pow_one, Nat.mul_comm]

end Sys2Proof.Machine

namespace Sys2Proof.Safety

open Sys2Proof.Machine

/-! ## A successful write of a result and its flag -/

/-- With x other than F both land, each in its own register. -/
theorem succeed_setResultFlag_frame (s : State) {x : Reg} (hx : x ≠ vf) (b : Byte) (f : Bool) :
    ∃ t, succeed (s.setResultFlag x b f) = .next t ∧ t.outcome = .success ∧ t.reg x = b ∧ t.reg vf = flagByte f ∧
      Frame { reg := andFlag x } s t :=
  ⟨_, rfl, rfl, (s.reg_setResultFlag x x b f).trans (by simp [hx]), (s.reg_setResultFlag x vf b f).trans (if_pos rfl),
    (Frame.setResultFlag s x b f).withOutcome .success⟩

theorem andFlag_vf : andFlag vf = only vf := funext fun j => Bool.or_self (j == vf)

/-- With x = F the flag, written last, is what stays. -/
theorem succeed_setResultFlag_vf_frame (s : State) (b : Byte) (f : Bool) :
    ∃ t, succeed (s.setResultFlag vf b f) = .next t ∧ t.outcome = .success ∧ t.reg vf = flagByte f ∧
      Frame { reg := only vf } s t :=
  ⟨_, rfl, rfl, (s.reg_setResultFlag vf vf b f).trans (if_pos rfl),
    andFlag_vf ▸ (Frame.setResultFlag s vf b f).withOutcome .success⟩

/-! ## The obligations -/

/-- Settles O24: each is one write of a result and its flag, both from the operands before the write. -/
theorem addAndSubtractSetFlag : Obligations.AddAndSubtractSetFlag := by
  intro x y s hx
  refine ⟨⟨decodeWord_encode (i := .addReg x y) rfl, decodeWord_encode (i := .sub x y) rfl,
    decodeWord_encode (i := .subn x y) rfl⟩, ?_, ?_, ?_⟩
  · obtain ⟨t, ht, hout, hres, hflag, hf⟩ :=
      succeed_setResultFlag_frame s hx (s.reg x + s.reg y) (addCarry (s.reg x) (s.reg y))
    exact ⟨t, ht, hout, by rw [hres, BitVec.toNat_add], by rw [hflag, flagByte_addCarry], hf⟩
  · obtain ⟨t, ht, hout, hres, hflag, hf⟩ :=
      succeed_setResultFlag_frame s hx (s.reg x - s.reg y) (notBorrow (s.reg x) (s.reg y))
    exact ⟨t, ht, hout, by rw [hres, byte_sub_toNat], by rw [hflag, flagByte_notBorrow], hf⟩
  · obtain ⟨t, ht, hout, hres, hflag, hf⟩ :=
      succeed_setResultFlag_frame s hx (s.reg y - s.reg x) (notBorrow (s.reg y) (s.reg x))
    exact ⟨t, ht, hout, by rw [hres, byte_sub_toNat], by rw [hflag, flagByte_notBorrow], hf⟩

/-- Settles O25: each is one write of the shifted source and the bit shifted out. -/
theorem shiftsSetFlag : Obligations.ShiftsSetFlag := by
  intro x y s v hx hv
  have hsource : (s.shiftSource x y).toNat = v := hv.symm
  refine ⟨⟨decodeWord_encode (i := .shr x y) rfl, decodeWord_encode (i := .shl x y) rfl⟩, ?_, ?_⟩
  · obtain ⟨t, ht, hout, hres, hflag, hf⟩ :=
      succeed_setResultFlag_frame s hx (s.shiftSource x y >>> 1) (lowBit (s.shiftSource x y))
    exact ⟨t, ht, hout, by rw [hres, byte_shiftRight_toNat, hsource], by rw [hflag, flagByte_lowBit_toNat, hsource], hf⟩
  · obtain ⟨t, ht, hout, hres, hflag, hf⟩ :=
      succeed_setResultFlag_frame s hx (s.shiftSource x y <<< 1) (highBit (s.shiftSource x y))
    exact ⟨t, ht, hout, by rw [hres, byte_shiftLeft_toNat, hsource], by rw [hflag, flagByte_highBit_toNat, hsource], hf⟩

/-- Settles O26: with x = F each ends with VF the flag, from the operands before the write. -/
theorem flagWinsWhenDestinationIsVf : Obligations.FlagWinsWhenDestinationIsVf := by
  intro y s v hv
  have hsource : (s.shiftSource vf y).toNat = v := hv.symm
  have hlow : (flagByte (lowBit (s.shiftSource vf y))).toNat = v % 2 := by rw [flagByte_lowBit_toNat, hsource]
  have hhigh : (flagByte (highBit (s.shiftSource vf y))).toNat = v / 128 := by rw [flagByte_highBit_toNat, hsource]
  rw [← flagByte_addCarry, ← flagByte_notBorrow, ← flagByte_notBorrow, ← hlow, ← hhigh]
  simp only [BitVec.toNat_inj]
  exact ⟨succeed_setResultFlag_vf_frame s _ _, succeed_setResultFlag_vf_frame s _ _, succeed_setResultFlag_vf_frame s _ _,
    succeed_setResultFlag_vf_frame s _ _, succeed_setResultFlag_vf_frame s _ _⟩

/-- Settles O27: RND is one register write, of the draw masked by kk. -/
theorem randomIsMaskedDraw : Obligations.RandomIsMaskedDraw := by
  intro x kk s
  obtain ⟨t, ht, hout, hreg, hf⟩ := succeed_setReg_frame s x (s.randomDraw &&& kk)
  refine ⟨decodeWord_encode (i := .rnd x kk) rfl, t, ht, hout, hreg, fun k hk => ?_, hf⟩
  rw [hreg, BitVec.getLsbD_and, hk, Bool.and_false]

/-- Settles O29: ADD I, Vx is one write of I, of the 16-bit sum. -/
theorem addIndexWrapsAt16Bits : Obligations.AddIndexWrapsAt16Bits := fun x s =>
  ⟨decodeWord_encode (i := .addI x) rfl,
    succeed_setI_frame s (by rw [BitVec.toNat_add, BitVec.toNat_setWidth_of_le (by decide)])⟩

end Sys2Proof.Safety

/-! # Transfers between registers and memory (43_index_memory R143, R145, R146; 20_memory R57, R64) -/

namespace Sys2Proof.Machine

theorem State.readByte_writeRun_add (s : State) (a : Nat) (bs : List Byte) {k : Nat} (hk : k < bs.length) :
    (s.writeRun a bs).readByte (a + k) = bs[k] := by
  rw [State.readByte_writeRun, if_pos (Nat.le_add_right a k), Nat.add_sub_cancel_left, List.getElem?_eq_getElem hk,
    Option.getD_some]

theorem State.regsUpTo_getElem (s : State) {x j : Reg} (hj : j.toNat < (s.regsUpTo x).length) :
    (s.regsUpTo x)[j.toNat] = s.reg j := by
  have hle : j.toNat ≤ x.toNat := Nat.le_of_lt_succ (by rwa [State.regsUpTo_length] at hj)
  have hget := s.regsUpTo_getElem? x j.toNat
  rw [if_pos hle, BitVec.ofNat_toNat, BitVec.setWidth_eq] at hget
  exact List.getElem_eq_iff _ |>.2 hget

/-- The digits of a byte are below 256, so none is truncated. -/
theorem bcd_toNat (v : Byte) : (bcd v).map BitVec.toNat = [v.toNat / 100, v.toNat / 10 % 10, v.toNat % 10] := by
  have := v.isLt
  simp only [bcd, List.map_cons, List.map_nil, BitVec.toNat_ofNat, List.cons.injEq, and_true]
  omega

/-! ## The endings of the transfers inside memory -/

theorem exec_ldB_of_le {x : Reg} {s : State} (h : s.regI.toNat + 3 ≤ 4096) :
    exec (.ldB x) s = succeed (s.writeRun s.regI.toNat (bcd (s.reg x))) := by
  rcases execLdB_cases x s with ⟨-, he⟩ | ⟨hlt, -⟩
  · exact he
  · omega

theorem exec_stRegs_of_le {x : Reg} {s : State} (h : s.regI.toNat + (x.toNat + 1) ≤ 4096) :
    exec (.stRegs x) s = succeed ((s.writeRun s.regI.toNat (s.regsUpTo x)).setI (s.indexAfterCopy x)) := by
  rcases execStRegs_cases x s with ⟨-, he⟩ | ⟨hlt, -⟩
  · exact he
  · omega

theorem exec_ldRegs_of_le {x : Reg} {s : State} (h : s.regI.toNat + (x.toNat + 1) ≤ 4096) :
    exec (.ldRegs x) s = succeed ((s.loadRegs x).setI (s.indexAfterCopy x)) := by
  rcases execLdRegs_cases x s with ⟨-, he⟩ | ⟨hlt, -⟩
  · exact he
  · omega

end Sys2Proof.Machine

namespace Sys2Proof.Safety

open Sys2Proof.Machine

/-- Settles O31: FX33 is one run of three writes, of the digits. -/
theorem bcdStoresDigits : Obligations.BcdStoresDigits := by
  intro x s h
  have hread (k : Nat) (hk : k < (bcd (s.reg x)).length) := s.readByte_writeRun_add s.regI.toNat (bcd (s.reg x)) hk
  obtain ⟨hhundreds, htens, hones⟩ := by simpa [bcd, -BitVec.toNat_ofNat] using bcd_toNat (s.reg x)
  exact ⟨decodeWord_encode (i := .ldB x) rfl, _, exec_ldB_of_le h, rfl,
    (congrArg BitVec.toNat (hread 0 (by simp [bcd]))).trans hhundreds,
    (congrArg BitVec.toNat (hread 1 (by simp [bcd]))).trans htens,
    (congrArg BitVec.toNat (hread 2 (by simp [bcd]))).trans hones,
    (Frame.writeRun s s.regI.toNat (bcd (s.reg x))).withOutcome .success⟩

/-- Settles O32: FX55 is a run of writes, of V0..V[x], and then a write of I. -/
theorem storeRegistersCopiesToMemory : Obligations.StoreRegistersCopiesToMemory := by
  intro x s h
  refine ⟨decodeWord_encode (i := .stRegs x) rfl, _, exec_stRegs_of_le h, rfl, fun j hj => ?_,
    s.indexAfterCopy_toNat x h, ?_⟩
  · have hlen : j.toNat < (s.regsUpTo x).length := s.regsUpTo_length x ▸ Nat.lt_succ_of_le hj
    exact (s.readByte_writeRun_add _ _ hlen).trans (s.regsUpTo_getElem hlen)
  · have hf := (Frame.writeRun s s.regI.toNat (s.regsUpTo x)).trans (.setI _ (s.indexAfterCopy x))
    simpa using hf.withOutcome .success

/-- Settles O33: FX65 is one write of the register file and then a write of I. -/
theorem loadRegistersCopiesFromMemory : Obligations.LoadRegistersCopiesFromMemory := by
  intro x s h
  refine ⟨decodeWord_encode (i := .ldRegs x) rfl, _, exec_ldRegs_of_le h, rfl,
    fun j hj => (s.reg_loadRegs x j).trans (if_pos hj), s.indexAfterCopy_toNat x h, ?_⟩
  have hf := (Frame.loadRegs s x).trans (.setI _ (s.indexAfterCopy x))
  simpa using hf.withOutcome .success

/-- Settles O35: the fetch reads the two bytes at the old I: V0, and V1 or, outside the one byte written, the byte before. -/
theorem fetchSeesStoredRegisters : Obligations.FetchSeesStoredRegisters := by
  intro x s h _
  obtain ⟨-, t, ht, hout, hstored, -, hf⟩ := storeRegistersCopiesToMemory x s h
  refine ⟨t, ht, hout, (fetchIsBigEndian (t.setPc s.regI)).trans ?_⟩
  have hhigh : t.readByte s.regI.toNat = s.reg 0#4 := hstored 0#4 (Nat.zero_le _)
  have hlow : t.readByte (s.regI.toNat + 1) = if x = 0#4 then s.readByte (s.regI.toNat + 1) else s.reg 1#4 := by
    split
    next hx =>
      subst hx
      exact hf.mem _ (by simp [bytesAt])
    next hx =>
      have hpos : x.toNat ≠ 0 := fun h0 => hx (BitVec.eq_of_toNat_eq h0)
      exact hstored 1#4 (Nat.one_le_iff_ne_zero.2 hpos)
  rw [← hhigh, ← hlow]
  rfl

end Sys2Proof.Safety

/-! # The canonical form of memory (20_memory R50, log 25) -/

namespace Sys2Proof.Machine

/-! ## The two answers of a ROM load (70_reset R204, R205) -/

theorem loadRom_of_le {bytes : List Byte} (h : bytes.length ≤ 3584) (s : State) :
    loadRom bytes s = (.success, s.writeRun 0x200 bytes) := if_pos h

theorem loadRom_of_lt {bytes : List Byte} (h : 3584 < bytes.length) (s : State) :
    loadRom bytes s = (.romTooLarge, s) := if_neg (Nat.not_le.2 h)

end Sys2Proof.Machine

namespace Sys2Proof.Safety

open Sys2Proof.Machine

/-! ## What an instruction and a step write to memory -/

theorem mem_eq_of_next {r : Result} {t u : State} (ht : r = .next t) (hu : r = .next u) : t.mem = u.mem :=
  congrArg State.mem (Host.Outcome.next.inj (ht.symm.trans hu))

/-- An instruction leaves memory, or writes a run of bytes at I that ends inside the 4096. -/
theorem exec_mem_cases {i : Instr} {s t : State} (h : exec i s = .next t) :
    t.mem = s.mem ∨ ∃ bs, s.regI.toNat + bs.length ≤ Config.memSize ∧ t.mem = (s.writeRun s.regI.toNat bs).mem := by
  cases i with
  | ldB x =>
    rcases execLdB_cases x s with ⟨hle, he⟩ | ⟨-, he⟩
    · exact .inr ⟨bcd (s.reg x), hle, (mem_eq_of_next h he :)⟩
    · exact .inl (mem_eq_of_next h he :)
  | stRegs x =>
    rcases execStRegs_cases x s with ⟨hle, he⟩ | ⟨-, he⟩
    · exact .inr ⟨s.regsUpTo x, (s.regsUpTo_length x).symm ▸ hle, (mem_eq_of_next h he :)⟩
    · exact .inl (mem_eq_of_next h he :)
  | ret => rcases execRet_cases s with ⟨-, he⟩ | ⟨_, he⟩ <;> exact .inl (mem_eq_of_next h he :)
  | call nnn => rcases execCall_cases nnn s with ⟨-, he⟩ | ⟨_, he⟩ <;> exact .inl (mem_eq_of_next h he :)
  | drw x y n => rcases execDrw_cases x y n s with ⟨-, he⟩ | ⟨-, he⟩ <;> exact .inl (mem_eq_of_next h he :)
  | ldVxK x => rcases execLdVxK_cases x s with ⟨-, he⟩ | ⟨_, -, -, -, he⟩ <;> exact .inl (mem_eq_of_next h he :)
  | ldRegs x => rcases execLdRegs_cases x s with ⟨-, he⟩ | ⟨-, he⟩ <;> exact .inl (mem_eq_of_next h he :)
  | _ => exact .inl (mem_eq_of_next h rfl :)

/-! ## Everything that happens keeps the form -/

theorem Canonical.writeRun {s : State} (hc : Canonical s) {a : Nat} {bs : List Byte}
    (hle : a + bs.length ≤ Config.memSize) : Canonical (s.writeRun a bs) := s.writeRun_wf a bs hle hc

/-- The form is a property of memory and FONT_BASE alone. -/
theorem Canonical.congr {s t : State} (hc : Canonical s) (hmem : t.mem = s.mem) (hfont : t.fontBase = s.fontBase) :
    Canonical t := by
  unfold Canonical
  rwa [hmem, hfont]

theorem exec_keeps_canonical {i : Instr} {s t : State} (hc : Canonical s) (h : exec i s = .next t) : Canonical t := by
  have hfont := (exec_frame h).fontBase
  rcases exec_mem_cases h with hmem | ⟨bs, hle, hmem⟩
  · exact hc.congr hmem hfont
  · exact (hc.writeRun hle).congr hmem (hfont.trans (Frame.writeRun s s.regI.toNat bs).fontBase.symm)

theorem step_keeps_canonical {s t : State} (hc : Canonical s) (h : step s = .next t) : Canonical t := by
  rcases step_cases s with ⟨-, he⟩ | ⟨-, he⟩
  · exact exec_keeps_canonical (s := s.advance) hc (he.symm.trans h)
  · obtain rfl := (raise_eq_next _ s t).1 (he ▸ h)
    exact hc

theorem observe_eq_next {r : Result} {t : State} (h : observe r = .next t) : r = .next t := by
  cases r with
  | next s =>
    simp only [observe] at h
    split at h
    · exact h
    · exact nomatch h
  | fault e => exact h
  | refused e => exact h

theorem loadRom_keeps_canonical {s : State} (hc : Canonical s) (bytes : List Byte) :
    Canonical (Machine.loadRom bytes s).2 := by
  rcases Nat.lt_or_ge 3584 bytes.length with hlt | hle
  · rwa [loadRom_of_lt hlt]
  · rw [loadRom_of_le hle]
    exact hc.writeRun (Nat.add_le_add_left hle Config.progStart)

theorem hostEvent_keeps_canonical {e : HostEvent} {s t : State} (hc : Canonical s) (h : e.apply s = .next t) :
    Canonical t := by
  cases e with
  | step => exact step_keeps_canonical hc (observe_eq_next h)
  | setKey k pressed =>
    rcases Nat.lt_or_ge k 16 with hk | hk
    · obtain rfl := Host.Outcome.next.inj ((setKey_of_lt hk pressed s).symm.trans h)
      exact hc
    · exact nomatch (setKey_of_le hk pressed s).symm.trans h
  | setModes m =>
    obtain rfl := Host.Outcome.next.inj h
    exact hc
  | loadRom bytes =>
    obtain rfl := Host.Outcome.next.inj h
    exact loadRom_keeps_canonical hc bytes

/-! ## Runs -/

/-- A run that takes an event takes it first, and ends in what the rest ends in from there. -/
theorem endsIn_cons_iff (e : HostEvent) (es : List HostEvent) (s t : State) :
    EndsIn (e :: es) s t ↔ ∃ u, e.apply s = .next u ∧ EndsIn es u t := by
  unfold EndsIn
  cases h : e.apply s <;> simp [run, h]

/-- What every event of a run keeps, the run keeps. -/
theorem endsIn_induction {P : State → Prop} (hevent : ∀ {e : HostEvent} {s t : State}, P s → e.apply s = .next t → P t)
    {es : List HostEvent} {s t : State} (hs : P s) (h : EndsIn es s t) : P t := by
  induction es generalizing s with
  | nil => exact Host.Outcome.next.inj h ▸ hs
  | cons e es ih =>
    obtain ⟨u, hu, hrest⟩ := (endsIn_cons_iff e es s t).1 h
    exact ih (hevent hs hu) hrest

/-- A run goes on from where its first part ends. -/
theorem run_append {es : List HostEvent} {s t : State} (h : EndsIn es s t) (rest : List HostEvent) :
    run (es ++ rest) s = run rest t := by
  induction es generalizing s with
  | nil => exact Host.Outcome.next.inj h ▸ rfl
  | cons e es ih =>
    obtain ⟨u, hu, hes⟩ := (endsIn_cons_iff e es s t).1 h
    simp only [List.cons_append, run, hu, ih hes]

theorem run_cons_fault {e : HostEvent} {s : State} {f : Fault} (h : e.apply s = .fault f) (es : List HostEvent) :
    run (e :: es) s = .fault f := by
  simp only [run, h]

/-! ## The obligations -/

/-- Settles O50: the only writes an instruction makes are runs inside the 4096 bytes. -/
theorem stepKeepsCanonicalMemory : Obligations.StepKeepsCanonicalMemory := fun _ _ => step_keeps_canonical

/-- Settles O51: every event keeps the form, a ROM load because what it copies fits. -/
theorem runsKeepCanonicalMemory : Obligations.RunsKeepCanonicalMemory := fun _ _ _ => endsIn_induction hostEvent_keeps_canonical

/-- Settles O53: construction lists no byte. -/
theorem resetMemoryIsCanonical : Obligations.ResetMemoryIsCanonical :=
  ⟨Memory.wf_nil _, fun base _ => Memory.wf_nil base⟩

/-- Settles O58: the run reaches the step by its successful first part, and the recorded error is observed as a fault. -/
theorem runEndsAtFirstError : Obligations.RunEndsAtFirstError := by
  intro es rest s t u e hes hstep hout
  have hfault : HostEvent.step.apply t = .fault e := by simp only [HostEvent.apply, hstep, observe, hout]
  exact (run_append hes _).trans (run_cons_fault hfault rest)

end Sys2Proof.Safety

/-! # What does not depend on the mode flags and the draws (10_state R44; 40_step R90) -/

namespace Sys2Proof.Safety

open Sys2Proof.Machine

/-- The state with other mode flags and another number for its next draws. -/
def withInputs (m : Modes) (n : Nat) (s : State) : State := { s with modes := m, drawIndex := n }

section
variable (m : Modes) (n : Nat) (s : State)

/-! ## Operands and updates with other flags and draws -/

theorem withModes_eq_withInputs : withModes m s = withInputs m s.drawIndex s := rfl

theorem withDraws_eq_withInputs : withDraws n s = withInputs s.modes n s := rfl

theorem withInputs_keys : (withInputs m n s).keys = s.keys := rfl

theorem withInputs_writeRun (a : Nat) (bs : List Byte) :
    (withInputs m n s).writeRun a bs = withInputs m n (s.writeRun a bs) := by
  induction bs generalizing a s with
  | nil => rfl
  | cons b bs ih => exact ih (s.writeByte a b) (a + 1)

theorem withInputs_readRun (a k : Nat) : (withInputs m n s).readRun a k = s.readRun a k := by
  induction k generalizing a with
  | zero => rfl
  | succ k ih => simp only [State.readRun, ih]; rfl

theorem withInputs_push (value : Word) : (withInputs m n s).push value = (s.push value).map (withInputs m n) := by
  by_cases h : s.sp.val < 16 <;> simp [State.push, withInputs, h]

theorem withInputs_pop : (withInputs m n s).pop = s.pop.map (Prod.map id (withInputs m n)) := by
  by_cases h : 0 < s.sp.val <;> simp [State.pop, withInputs, h]

theorem withInputs_drawn (x y : Reg) (k : Nibble) : drawn x y k (withInputs m n s) = drawn x y k s := by
  simp only [drawn, withInputs_readRun]
  rfl

/-- A key's state depends on the draw only for an index that names no key. -/
theorem withInputs_pressed (k : Byte) (hn : 16 ≤ k.toNat → n = s.drawIndex) :
    (withInputs m n s).pressed k = s.pressed k := by
  unfold State.pressed
  split
  next => rfl
  next hk =>
    obtain rfl := hn (Nat.not_lt.1 hk)
    rfl

/-! ## Endings -/

theorem succeed_skipIf_withInputs {p q : Bool} (h : p = q) :
    succeed ((withInputs m n s).skipIf p) = onNext (withInputs m n) (succeed (s.skipIf q)) := h ▸ rfl

/-- An ending behind a bounds check, which reads neither input. -/
theorem ite_withInputs (inBounds : Bool) {u u' : State} (h : u' = withInputs m n u) (e : Fault) :
    (if inBounds then succeed u' else raise e (withInputs m n s)) =
      onNext (withInputs m n) (if inBounds then succeed u else raise e s) := by
  subst h
  cases inBounds <;> rfl

end

/-- An instruction that may read a flag or a draw keeps that input; the others run alike with any. -/
theorem exec_withInputs {i : Instr} {m : Modes} {n : Nat} {s : State} (hm : readsModes i = true → m = s.modes)
    (hn : readsDraw i s = true → n = s.drawIndex) :
    exec i (withInputs m n s) = onNext (withInputs m n) (exec i s) := by
  cases i with
  | ret =>
    simp only [exec, execRet, withInputs_pop]
    cases s.pop <;> rfl
  | call nnn =>
    have hpush : (withInputs m n s).push (withInputs m n s).pc = (s.push s.pc).map (withInputs m n) :=
      withInputs_push m n s s.pc
    simp only [exec, execCall, hpush]
    cases s.push s.pc <;> rfl
  | shr | shl | jpV =>
    obtain rfl := hm rfl
    rfl
  | rnd =>
    obtain rfl := hn rfl
    rfl
  | skp x =>
    exact succeed_skipIf_withInputs m n s (withInputs_pressed m n s (s.reg x) fun h => hn (decide_eq_true h))
  | sknp x =>
    exact succeed_skipIf_withInputs m n s
      (congrArg not (withInputs_pressed m n s (s.reg x) fun h => hn (decide_eq_true h)))
  | ldVxK x =>
    simp only [exec, execLdVxK, withInputs_keys]
    cases lowestKey s.keys <;> rfl
  | drw x y k =>
    have hend : ((withInputs m n s).setFb (drawn x y k (withInputs m n s)).1).setReg vf
        (flagByte (drawn x y k (withInputs m n s)).2) =
        withInputs m n ((s.setFb (drawn x y k s).1).setReg vf (flagByte (drawn x y k s).2)) := by
      rw [withInputs_drawn]
      rfl
    exact ite_withInputs m n s (s.runInBounds k.toNat) hend .memoryOutOfBounds
  | ldB x => exact ite_withInputs m n s (s.runInBounds 3) (withInputs_writeRun m n s _ _) .memoryOutOfBounds
  | stRegs x =>
    obtain rfl := hm rfl
    exact ite_withInputs s.modes n s (s.runInBounds (x.toNat + 1))
      (congrArg (State.setI (s.indexAfterCopy x)) (withInputs_writeRun s.modes n s _ (s.regsUpTo x))) .memoryOutOfBounds
  | ldRegs x =>
    obtain rfl := hm rfl
    exact ite_withInputs s.modes n s (s.runInBounds (x.toNat + 1))
      (u := (s.loadRegs x).setI (s.indexAfterCopy x)) rfl .memoryOutOfBounds
  | _ => rfl

/-- No instruction writes MODES or the draws' number. -/
theorem onNext_withInputs_of_exec {i : Instr} {s : State} {m : Modes} {n : Nat} {f : State → State}
    (hf : ∀ t, t.modes = s.modes → t.drawIndex = s.drawIndex → withInputs m n t = f t) :
    onNext (withInputs m n) (exec i s) = onNext f (exec i s) := by
  obtain ⟨t, ht⟩ := exec_eq_next i s
  have hframe := exec_frame ht
  rw [ht]
  exact congrArg Host.Outcome.next (hf t hframe.modes hframe.drawIndex)

/-! ## The obligations -/

/-- Settles O48: other flags and the same draws. -/
theorem otherInstructionsIgnoreModes : Obligations.OtherInstructionsIgnoreModes := by
  intro i m s hi
  rw [withModes_eq_withInputs, exec_withInputs (fun h => nomatch hi.symm.trans h) fun _ => rfl]
  exact onNext_withInputs_of_exec fun t _ hdraw => hdraw ▸ rfl

/-- Settles O49: the same flags and other draws. -/
theorem otherInstructionsIgnoreDraws : Obligations.OtherInstructionsIgnoreDraws := by
  intro i n s hi
  rw [withDraws_eq_withInputs, exec_withInputs (fun _ => rfl) fun h => nomatch hi.symm.trans h]
  exact onNext_withInputs_of_exec fun t hmodes _ => hmodes ▸ rfl

end Sys2Proof.Safety

/-! # Drawing (44_display R161) -/

namespace Sys2Proof.Machine

/-! ## The points of a sprite -/

/-- The points of the sprite's rows, from row `py` down. -/
def spritePoints (ox : Nat) : Nat → List Byte → List (Nat × Nat × Bool)
  | _, [] => []
  | py, b :: bs => rowPoints ox py b ++ spritePoints ox (py + 1) bs

theorem drawRows_eq_points (ox py : Nat) (bs : List Byte) (p : Screen × Bool) :
    drawRows ox py bs p = drawPoints (spritePoints ox py bs) p := by
  induction bs generalizing py p with
  | nil => rfl
  | cons b bs ih =>
    simp only [drawRows, spritePoints, drawRow_eq_points, ih, drawPoints, List.foldl_append]

theorem mem_rowPoints {ox py : Nat} {b : Byte} {q : Nat × Nat × Bool} :
    q ∈ rowPoints ox py b ↔ ∃ col < 8, q = (ox + col, py, b.getLsbD (7 - col)) := by
  simp only [rowPoints, List.mem_map, List.mem_range, eq_comm]

/-- A point of the sprite is a column of the 8 and a row of its bytes. -/
theorem mem_spritePoints {ox py : Nat} {bs : List Byte} {q : Nat × Nat × Bool} :
    q ∈ spritePoints ox py bs ↔
      ∃ row, ∃ h : row < bs.length, ∃ col < 8, q = (ox + col, py + row, bs[row].getLsbD (7 - col)) := by
  induction bs generalizing py with
  | nil => simp [spritePoints]
  | cons b bs ih =>
    rw [spritePoints, List.mem_append, mem_rowPoints, ih]
    constructor
    · rintro (⟨col, hcol, rfl⟩ | ⟨row, hrow, col, hcol, rfl⟩)
      · exact ⟨0, Nat.zero_lt_succ _, col, hcol, rfl⟩
      · exact ⟨row + 1, Nat.succ_lt_succ hrow, col, hcol, by simp [Nat.add_assoc, Nat.add_comm 1]⟩
    · rintro ⟨row, hrow, col, hcol, rfl⟩
      cases row with
      | zero => exact .inl ⟨col, hcol, rfl⟩
      | succ row => exact .inr ⟨row, Nat.lt_of_succ_lt_succ hrow, col, hcol, by simp [Nat.add_assoc, Nat.add_comm 1]⟩

/-! ## They lie on different cells -/

theorem pairwise_rowPoints (ox py : Nat) (b : Byte) :
    (rowPoints ox py b).Pairwise (fun q r => sameCell q r.1 r.2.1 = false) := by
  refine List.pairwise_map.2 (List.pairwise_lt_range.imp_of_mem fun {c c'} hc hc' hlt => ?_)
  have := List.mem_range.1 hc'
  simp only [sameCell, decide_eq_false_iff_not]
  omega

/-- A sprite is 8 columns wide and at most 32 rows high, so it does not wrap onto itself. -/
theorem pairwise_spritePoints (ox py : Nat) {bs : List Byte} (hlen : bs.length ≤ 32) :
    (spritePoints ox py bs).Pairwise (fun q r => sameCell q r.1 r.2.1 = false) := by
  induction bs generalizing py with
  | nil => exact .nil
  | cons b bs ih =>
    have hlen : bs.length + 1 ≤ 32 := hlen
    refine List.pairwise_append.2 ⟨pairwise_rowPoints ox py b, ih (py + 1) (by omega), fun q hq r hr => ?_⟩
    obtain ⟨col, -, rfl⟩ := mem_rowPoints.1 hq
    obtain ⟨row, hrow, col', -, rfl⟩ := mem_spritePoints.1 hr
    simp only [sameCell, decide_eq_false_iff_not]
    omega

/-! ## Collisions by cell -/

theorem Screen.pixel_mod (fb : Screen) (x y : Nat) : fb.pixel (x % 64) (y % 32) = fb.pixel x y := by
  simp only [Screen.pixel, Nat.mod_mod]

theorem Screen.pixel_of_sameCell (fb : Screen) {q : Nat × Nat × Bool} {x y : Nat} (h : sameCell q x y = true) :
    fb.pixel q.1 q.2.1 = fb.pixel x y := by
  obtain ⟨hx, hy⟩ := of_decide_eq_true h
  rw [← fb.pixel_mod q.1, ← fb.pixel_mod x, hx, hy]

/-- A set point meets a lit cell exactly when some cell of the screen is lit and under a set point. -/
theorem any_collision_iff (pts : List (Nat × Nat × Bool)) (fb : Screen) :
    pts.any (fun q => q.2.2 && fb.pixel q.1 q.2.1) = true ↔
      ∃ px py, px < 64 ∧ py < 32 ∧ fb.pixel px py = true ∧ pts.any (fun q => sameCell q px py && q.2.2) = true := by
  simp only [List.any_eq_true, Bool.and_eq_true]
  constructor
  · rintro ⟨q, hq, hbit, hlit⟩
    exact ⟨q.1 % 64, q.2.1 % 32, Nat.mod_lt _ (by decide), Nat.mod_lt _ (by decide), (fb.pixel_mod _ _).trans hlit,
      q, hq, by simp [sameCell], hbit⟩
  · rintro ⟨px, py, -, -, hlit, q, hq, hcell, hbit⟩
    exact ⟨q, hq, hbit, (fb.pixel_of_sameCell hcell).trans hlit⟩

theorem flagByte_eq_one_iff (f : Bool) : flagByte f = 1#8 ↔ f = true := by cases f <;> decide

theorem flagByte_cases (f : Bool) : flagByte f = 1#8 ∨ flagByte f = 0#8 := by cases f <;> decide

theorem exec_drw_of_le {x y : Reg} {n : Nibble} {s : State} (h : s.regI.toNat + n.toNat ≤ 4096) :
    exec (.drw x y n) s = succeed ((s.setFb (drawn x y n s).1).setReg vf (flagByte (drawn x y n s).2)) := by
  rcases execDrw_cases x y n s with ⟨-, he⟩ | ⟨hlt, -⟩
  · exact he
  · omega

end Sys2Proof.Machine

namespace Sys2Proof.Safety

open Sys2Proof.Machine

/-! ## The sprite as a picture -/

/-- The point of the sprite that falls on a pixel is at the pixel's distance from the origin, wrapping. -/
theorem sameCell_iff_distance {ox oy row col px py : Nat} (bit : Bool) (hx : px < 64) (hy : py < 32) (hcol : col < 64)
    (hrow : row < 32) : sameCell (ox + col, oy + row, bit) px py = true ↔
      col = (px + 64 - ox % 64) % 64 ∧ row = (py + 32 - oy % 32) % 32 := by
  simp only [sameCell, decide_eq_true_eq]
  omega

theorem any_spritePoints (s : State) (ox oy n : Nat) {px py : Nat} (hn : n ≤ 32) (hx : px < 64) (hy : py < 32) :
    (spritePoints ox oy (s.readRun s.regI.toNat n)).any (fun q => sameCell q px py && q.2.2) =
      spriteBit s ox oy n px py := by
  rw [Bool.eq_iff_iff, List.any_eq_true]
  simp only [spriteBit, Bool.and_eq_true, decide_eq_true_eq]
  constructor
  · rintro ⟨q, hq, hcell, hbit⟩
    obtain ⟨row, hrow, col, hcol, rfl⟩ := mem_spritePoints.1 hq
    have hlt : row < n := by rwa [State.readRun_length] at hrow
    obtain ⟨hc, hr⟩ := (sameCell_iff_distance _ hx hy (by omega) (by omega)).1 hcell
    rw [State.readRun_getElem] at hbit
    rw [← hc, ← hr]
    exact ⟨⟨hcol, hlt⟩, hbit⟩
  · rintro ⟨⟨hcol, hrow⟩, hbit⟩
    have hlen := (s.readRun_length s.regI.toNat n).symm ▸ hrow
    refine ⟨_, mem_spritePoints.2 ⟨_, hlen, _, hcol, rfl⟩,
      (sameCell_iff_distance _ hx hy (by omega) (by omega)).2 ⟨rfl, rfl⟩, ?_⟩
    rwa [State.readRun_getElem]

/-- DRW's loop, cell by cell: the sprite is XORed in, and the collision is a set bit on a lit cell. -/
theorem drawn_spec (x y : Reg) (n : Nibble) (s : State) :
    (∀ px py, px < 64 → py < 32 → (drawn x y n s).1.pixel px py =
      (s.fb.pixel px py ^^ spriteBit s (s.reg x).toNat (s.reg y).toNat n.toNat px py)) ∧
    ((drawn x y n s).2 = true ↔ ∃ px py, px < 64 ∧ py < 32 ∧ s.fb.pixel px py = true ∧
      spriteBit s (s.reg x).toNat (s.reg y).toNat n.toNat px py = true) := by
  have hn : n.toNat ≤ 32 := by have := n.isLt; omega
  obtain ⟨hpixel, hflag⟩ := drawPoints_spec _ (s.fb, false) (pairwise_spritePoints (s.reg x).toNat (s.reg y).toNat
    (bs := s.readRun s.regI.toNat n.toNat) (by rwa [State.readRun_length]))
  rw [← drawRows_eq_points] at hpixel hflag
  constructor
  · intro px py hx hy
    rw [← any_spritePoints s _ _ _ hn hx hy]
    exact hpixel px py
  · have hcollision := hflag.trans (Bool.false_or _)
    rw [drawn, hcollision, any_collision_iff]
    refine exists₂_congr fun px py => and_congr_right fun hx => and_congr_right fun hy => ?_
    rw [any_spritePoints s _ _ _ hn hx hy]

/-- The picture depends on I and memory alone. -/
theorem spriteBit_congr {s t : State} (hI : t.regI = s.regI) (hmem : ∀ a, t.readByte a = s.readByte a)
    (ox oy n px py : Nat) : spriteBit t ox oy n px py = spriteBit s ox oy n px py := by
  simp only [spriteBit, hI, hmem]

/-- A successful ending with a screen and a flag written, and nothing else. -/
theorem succeed_setFb_setFlag_frame (s : State) (fb : Screen) (f : Bool) :
    ∃ t, succeed ((s.setFb fb).setReg vf (flagByte f)) = .next t ∧ t.outcome = .success ∧ t.fb = fb ∧
      t.reg vf = flagByte f ∧ Frame { reg := only vf, fb := true } s t := by
  have hf := (Frame.setFb s fb).trans (.setReg _ vf (flagByte f))
  exact ⟨_, rfl, rfl, rfl, State.reg_setReg_self _ vf _, by simpa using hf.withOutcome .success⟩

/-! ## The obligations -/

/-- Settles O37: DRW is one write of the framebuffer and one of VF, both known by the picture. -/
theorem drawXorsSprite : Obligations.DrawXorsSprite := by
  intro x y n s h
  obtain ⟨hpixel, hcollision⟩ := drawn_spec x y n s
  obtain ⟨t, ht, hout, hfb, hvf, hf⟩ := succeed_setFb_setFlag_frame s (drawn x y n s).1 (drawn x y n s).2
  simp only [Screen.getElem_eq_pixel, exists_prop]
  refine ⟨decodeWord_encode (i := .drw x y n) rfl, t, (exec_drw_of_le h).trans ht, hout, ?_, ?_, ?_, hf⟩
  · rwa [hfb]
  · rwa [hvf, flagByte_eq_one_iff]
  · rw [hvf]
    exact flagByte_cases _

/-- Settles O38: the second draw finds the same origin and the same picture, and XORs it in again; on a blank screen the first
meets no lit cell and the second meets the picture itself. -/
theorem drawTwiceRestoresScreen : Obligations.DrawTwiceRestoresScreen := by
  intro x y n s hx hy h
  obtain ⟨-, t, ht, -, htfb, htvf, htflag, hft⟩ := drawXorsSprite x y n s h
  have hI : t.regI = s.regI := hft.regI rfl
  obtain ⟨-, u, hu, -, hufb, huvf, -, -⟩ := drawXorsSprite x y n t (by rwa [hI])
  have hsame (px py : Nat) : spriteBit t (t.reg x).toNat (t.reg y).toNat n.toNat px py =
      spriteBit s (s.reg x).toNat (s.reg y).toNat n.toNat px py := by
    rw [hft.reg x (by simpa [only] using hx), hft.reg y (by simpa [only] using hy),
      spriteBit_congr hI fun a => hft.mem a rfl]
  simp only [hsame, Screen.getElem_eq_pixel, exists_prop] at htfb htvf hufb huvf
  refine ⟨t, u, ht, hu, Screen.ext_pixel fun px py hpx hpy => ?_, fun hblank => ⟨?_, ?_⟩⟩
  · rw [hufb px py hpx hpy, htfb px py hpx hpy, Bool.xor_assoc, Bool.xor_self, Bool.xor_false]
  · refine htflag.resolve_left fun hone => ?_
    obtain ⟨px, py, -, -, hlit, -⟩ := htvf.1 hone
    simp [hblank] at hlit
  · rw [huvf]
    refine exists₂_congr fun px py => and_congr_right fun hpx => and_congr_right fun hpy => ?_
    rw [htfb px py hpx hpy, hblank, Screen.pixel_blank, Bool.false_xor, and_self_iff]

end Sys2Proof.Safety

/-! # Construction and the host (70_reset R200 to R213) -/

namespace Sys2Proof.Machine

/-! ## Rows of one width laid end to end -/

theorem getElem?_flatten_of_width {α : Type} {width : Nat} {rows : List (List α)} (hw : ∀ row ∈ rows, row.length = width)
    {x : Nat} (hx : x < width) (y : Nat) : rows.flatten[y * width + x]? = rows[y]?.bind (·[x]?) := by
  induction rows generalizing y with
  | nil => rfl
  | cons row rows ih =>
    have hrow : row.length = width := hw row List.mem_cons_self
    cases y with
    | zero => simp [List.getElem?_append_left, hrow, hx]
    | succ y =>
      have hindex : (y + 1) * width + x = row.length + (y * width + x) := by rw [hrow, Nat.succ_mul]; omega
      rw [List.flatten_cons, hindex, List.getElem?_append_right (Nat.le_add_right _ _), Nat.add_sub_cancel_left]
      exact ih (fun r hr => hw r (List.mem_cons_of_mem _ hr)) y

theorem State.frame_eq_flatten (s : State) :
    s.frame = (s.fb.toList.map fun row => row.toList.map flagByte).flatten := List.flatMap_def ..

theorem State.frame_getElem? (s : State) {x y : Nat} (hx : x < 64) (hy : y < 32) :
    s.frame[y * 64 + x]? = some (flagByte s.fb[y][x]) := by
  rw [State.frame_eq_flatten, getElem?_flatten_of_width (by simp) hx]
  simp [hx, hy]

/-! ## Reset contents (20_memory R52, R53) -/

theorem font_length : font.length = 80 := rfl

theorem resetByte_font (base : FontBase) {k : Nat} (hk : k < 80) :
    font[k]? = some (resetByte base (base.val + k)) := by
  have hbase := base.isLt
  have hlow : ¬ Config.progStart ≤ base.val + k := by simp only [Config.progStart]; omega
  have hlen : k < font.length := font_length ▸ hk
  rw [resetByte, if_neg hlow, if_pos (Nat.le_add_right _ _), Nat.add_sub_cancel_left, List.getElem?_eq_getElem hlen,
    Option.getD_some]

theorem resetByte_of_not_font (base : FontBase) {a : Nat} (ha : a < base.val ∨ base.val + 80 ≤ a) :
    resetByte base a = 0#8 := by
  unfold resetByte
  split
  next => rfl
  next =>
    split
    next hle =>
      have hpast : font.length ≤ a - base.val := by rw [font_length]; omega
      rw [List.getElem?_eq_none hpast, Option.getD_none]
    next => rfl

end Sys2Proof.Machine

namespace Sys2Proof.Safety

open Sys2Proof.Machine

/-- The step after SetModes runs the same word, with the new flags. -/
theorem step_setModes {i : Instr} {s : State} (hpc : s.pc.toNat ≤ 0xFFE) (hi : decodeWord s.fetch16 = i) (m : Modes) :
    step (setModes m s) = exec i (setModes m s.advance) :=
  step_eq_exec (s := setModes m s) hpc hi

/-! ## The obligations -/

/-- Settles O52: construction lists no byte, so every byte reads as its reset contents; the font is the glyphs end to end. -/
theorem constructionResetsEverything : Obligations.ConstructionResetsEverything := by
  intro base m s glyphs hs hglyphs
  have hflat : glyphs.flatten = font := by rw [hglyphs]; rfl
  have hwidth : ∀ g ∈ glyphs, g.length = 5 := by rw [hglyphs]; decide
  subst hs
  refine ⟨rfl, fun j => ?_, rfl, rfl, fun d k hd hk => ?_, fun a ha => resetByte_of_not_font base ha, rfl, rfl,
    fun j hj => ?_, rfl, rfl, rfl, fun x y hx hy => ?_⟩
  · simp [State.reg, State.construct]
  · rw [← getElem?_flatten_of_width hwidth hk, hflat, Nat.mul_comm d 5, Nat.add_assoc]
    exact resetByte_font base (by omega)
  · simp [State.construct]
  · simp [State.construct]

/-- Settles O54: a load that fits is one run of writes. -/
theorem romLoadCopiesOrRefuses : Obligations.RomLoadCopiesOrRefuses := by
  intro bytes s
  refine ⟨fun h => ⟨_, loadRom_of_le h s, fun k hk => s.readByte_writeRun_add 0x200 bytes hk, ?_,
    .writeRun s 0x200 bytes⟩, fun h => loadRom_of_lt h s⟩
  rw [State.writeRun_eq]

/-- Settles O56, by what each host operation can do. -/
theorem hostWritesOnlyInputsAndMemory : Obligations.HostWritesOnlyInputsAndMemory := by
  intro e s t he h
  rcases hostEvent_apply_cases he h with ⟨keys, rfl⟩ | ⟨m, rfl⟩ | rfl | ⟨bytes, rfl⟩
  · exact ⟨rfl, rfl, rfl, rfl, rfl, rfl, rfl, rfl⟩
  · exact ⟨rfl, rfl, rfl, rfl, rfl, rfl, rfl, rfl⟩
  · exact ⟨rfl, rfl, rfl, rfl, rfl, rfl, rfl, rfl⟩
  · rw [State.writeRun_eq]
    exact ⟨rfl, rfl, rfl, rfl, rfl, rfl, rfl, rfl⟩

/-- Settles O57: the frame is the 32 rows of 64 bytes end to end. -/
theorem frameIsRowMajor : Obligations.FrameIsRowMajor := by
  intro s
  refine ⟨?_, fun x y hx hy => s.frame_getElem? hx hy⟩
  simp [State.frame_eq_flatten, List.length_flatten, Function.comp_def]

/-- Settles O59: the mutators are record updates, and the steps after them are those of any state with these flags. -/
theorem modeMutatorWritesModes : Obligations.ModeMutatorWritesModes := by
  intro m s
  refine ⟨rfl, rfl, rfl, rfl, rfl, fun hpc => ⟨fun nnn hi => ?_, fun x y hx hi => ?_, fun x hle hi => ?_⟩⟩
  · obtain ⟨-, t, ht, -, hjump, hf⟩ := computedJumpAddsRegister nnn (setModes m s.advance)
    exact ⟨t, (step_setModes hpc hi m).trans ht, hf.modes, hjump⟩
  · obtain ⟨-, ⟨t, ht, -, hshift, -, hf⟩, -⟩ := shiftsSetFlag x y (setModes m s.advance) _ hx rfl
    exact ⟨t, (step_setModes hpc hi m).trans ht, hf.modes, hshift⟩
  · obtain ⟨-, t, ht, -, -, hindex, hf⟩ := loadRegistersCopiesFromMemory x (setModes m s.advance) hle
    exact ⟨t, (step_setModes hpc hi m).trans ht, hf.modes, hindex⟩

/-- Settles O60, field by field of the snapshot. -/
theorem accessorsShowState : Obligations.AccessorsShowState := by
  intro s
  refine ⟨rfl, rfl, rfl, rfl, rfl, rfl, s.v.length_toList, fun j => ?_, s.stack.length_toList, fun j hj => ?_, rfl,
    fun k hk => ⟨?_, if_pos hk⟩, fun k hk => if_neg (Nat.not_lt.2 hk)⟩
  · simp [State.snapshot, State.reg]
  · simp [State.snapshot, hj]
  · simp [State.snapshot, hk]

end Sys2Proof.Safety
